-- ==== Sys2Proof/Word.lean ====
section
/-! DEFINITION. The machine's words (spec/00_scope.md R11, R12): unsigned integers of 4, 8, 12 and 16 bits, and the
number of a general register. All values are unsigned (R11). -/

namespace Sys2Proof

/-- `u4`: one nibble of an instruction word, or the byte count `n` (spec/30_encoding.md R104). -/
abbrev Nibble := BitVec 4

/-- `u8`: a general register, a memory byte, a timer (spec/10_state.md R30, spec/20_memory.md R70). -/
abbrev Byte := BitVec 8

/-- `u12`: the address field `nnn` (spec/30_encoding.md R104). -/
abbrev Addr12 := BitVec 12

/-- `u16`: the pc, the index register, a stack slot, an instruction word. -/
abbrev Word := BitVec 16

/-- The number of a general register, 0..15 (spec/10_state.md R31: a 4-bit field selects an existing register by
construction); also the number of a key. -/
abbrev Reg := Fin 16

/-- `VF`, register 15 (spec/10_state.md R30, R32). -/
abbrev VF : Reg := 15

/-- `zext_16` (spec/00_scope.md R12). -/
abbrev zext16 {w : Nat} (x : BitVec w) : Word := x.setWidth 16

end Sys2Proof
end

