-- ==== Sys2Proof/Machine/Flags.lean ====
section
/-! DEFINITION. The values `VF` takes as a flag (spec/10_state.md R33; spec/45_alu.md). -/

namespace Sys2Proof.Machine

/-- A flag in a register: 1 or 0. -/
def flagByte (b : Bool) : Byte := if b then 1 else 0

/-- Carry out of bit 7 of `a + b` (spec/45_alu.md R266). -/
def carryFlag (a b : Byte) : Byte := flagByte (decide (a.toNat + b.toNat > 255))

/-- Not-borrow of `a - b`: 1 when `a >= b` (spec/45_alu.md R267, R268). -/
def notBorrowFlag (a b : Byte) : Byte := flagByte (decide (b.toNat ≤ a.toNat))

/-- The bit a right shift puts out, bit 0 (spec/45_alu.md R269). -/
def shiftRightFlag (a : Byte) : Byte := a &&& 1

/-- The bit a left shift puts out, bit 7 (spec/45_alu.md R270). -/
def shiftLeftFlag (a : Byte) : Byte := a >>> 7

/-- The collision flag of a draw (spec/46_display_system.md R292). -/
def collisionFlag (col : Bool) : Byte := flagByte col

end Sys2Proof.Machine
end

