-- ==== Sys2Proof/Syntax.lean ====
section
/-! DEFINITION. The 35 operations (spec/30_encoding.md R107), in the decode table's order, under the source's names
(spec/00_scope.md R18), with their operand fields (R104). A field that the operation ignores (R106) is still part of the
instruction, so that every bit of the word is kept. -/

namespace Sys2Proof

/-- One instruction: one constructor per row of spec/opcode_table.json. -/
inductive Instr where
  | clearScreen
  | ret
  | sysCall (nnn : Addr12)
  | jump (nnn : Addr12)
  | call (nnn : Addr12)
  | skipIfRegValEqual (x : Reg) (kk : Byte)
  | skipIfRegValNotEqual (x : Reg) (kk : Byte)
  | skipIfRegRegEqual (x y : Reg)
  | loadValToReg (x : Reg) (kk : Byte)
  | addValToReg (x : Reg) (kk : Byte)
  | loadRegToReg (x y : Reg)
  | orRegReg (x y : Reg)
  | andRegReg (x y : Reg)
  | xorRegReg (x y : Reg)
  | addRegToReg (x y : Reg)
  | subRegFromReg (x y : Reg)
  | shiftRightReg (x y : Reg)
  | subnRegFromReg (x y : Reg)
  | shiftLeftReg (x y : Reg)
  | skipIfRegRegNotEqual (x y : Reg)
  | loadValToI (nnn : Addr12)
  | jumpPlusV0 (nnn : Addr12)
  | randomAndValToReg (x : Reg) (kk : Byte)
  | drawSprite (x y : Reg) (n : Nibble)
  | skipIfKeyPressed (x : Reg)
  | skipIfKeyNotPressed (x : Reg)
  | loadDelayTimerToReg (x : Reg)
  | loadKeyToReg (x : Reg)
  | loadRegToDelayTimer (x : Reg)
  | loadRegToSoundTimer (x : Reg)
  | addRegToI (x : Reg)
  | loadSpriteLocationToI (x : Reg)
  | loadRegBcdToMem (x : Reg)
  | loadRegsToMem (x : Reg)
  | loadMemToRegs (x : Reg)
  deriving DecidableEq, Repr

/-- The source's name of an operation (spec/00_scope.md R18), as spec/opcode_table.json spells it. -/
def Instr.mnemonic : Instr → String
  | .clearScreen => "ClearScreen"
  | .ret => "Return"
  | .sysCall _ => "SysCall"
  | .jump _ => "Jump"
  | .call _ => "Call"
  | .skipIfRegValEqual _ _ => "SkipIfRegValEqual"
  | .skipIfRegValNotEqual _ _ => "SkipIfRegValNotEqual"
  | .skipIfRegRegEqual _ _ => "SkipIfRegRegEqual"
  | .loadValToReg _ _ => "LoadValToReg"
  | .addValToReg _ _ => "AddValToReg"
  | .loadRegToReg _ _ => "LoadRegToReg"
  | .orRegReg _ _ => "OrRegReg"
  | .andRegReg _ _ => "AndRegReg"
  | .xorRegReg _ _ => "XorRegReg"
  | .addRegToReg _ _ => "AddRegToReg"
  | .subRegFromReg _ _ => "SubRegFromReg"
  | .shiftRightReg _ _ => "ShiftRightReg"
  | .subnRegFromReg _ _ => "SubnRegFromReg"
  | .shiftLeftReg _ _ => "ShiftLeftReg"
  | .skipIfRegRegNotEqual _ _ => "SkipIfRegRegNotEqual"
  | .loadValToI _ => "LoadValToI"
  | .jumpPlusV0 _ => "JumpPlusV0"
  | .randomAndValToReg _ _ => "RandomAndValToReg"
  | .drawSprite _ _ _ => "DrawSprite"
  | .skipIfKeyPressed _ => "SkipIfKeyPressed"
  | .skipIfKeyNotPressed _ => "SkipIfKeyNotPressed"
  | .loadDelayTimerToReg _ => "LoadDelayTimerToReg"
  | .loadKeyToReg _ => "LoadKeyToReg"
  | .loadRegToDelayTimer _ => "LoadRegToDelayTimer"
  | .loadRegToSoundTimer _ => "LoadRegToSoundTimer"
  | .addRegToI _ => "AddRegToI"
  | .loadSpriteLocationToI _ => "LoadSpriteLocationToI"
  | .loadRegBcdToMem _ => "LoadRegBcdToMem"
  | .loadRegsToMem _ => "LoadRegsToMem"
  | .loadMemToRegs _ => "LoadMemToRegs"

/-- The class `FlowControl`: exactly Jump, JumpPlusV0, Call and Return (spec/40_execute_engine.md R143). -/
def Instr.isFlowControl : Instr → Bool
  | .jump _ | .jumpPlusV0 _ | .call _ | .ret => true
  | .clearScreen | .sysCall _ | .skipIfRegValEqual _ _ | .skipIfRegValNotEqual _ _ | .skipIfRegRegEqual _ _
  | .loadValToReg _ _ | .addValToReg _ _ | .loadRegToReg _ _ | .orRegReg _ _ | .andRegReg _ _ | .xorRegReg _ _
  | .addRegToReg _ _ | .subRegFromReg _ _ | .shiftRightReg _ _ | .subnRegFromReg _ _ | .shiftLeftReg _ _
  | .skipIfRegRegNotEqual _ _ | .loadValToI _ | .randomAndValToReg _ _ | .drawSprite _ _ _ | .skipIfKeyPressed _
  | .skipIfKeyNotPressed _ | .loadDelayTimerToReg _ | .loadKeyToReg _ | .loadRegToDelayTimer _
  | .loadRegToSoundTimer _ | .addRegToI _ | .loadSpriteLocationToI _ | .loadRegBcdToMem _ | .loadRegsToMem _
  | .loadMemToRegs _ => false

/-- The six conditional skips (spec/40_execute_engine.md R144, R146). -/
def Instr.isSkip : Instr → Bool
  | .skipIfRegValEqual _ _ | .skipIfRegValNotEqual _ _ | .skipIfRegRegEqual _ _ | .skipIfRegRegNotEqual _ _
  | .skipIfKeyPressed _ | .skipIfKeyNotPressed _ => true
  | .clearScreen | .ret | .sysCall _ | .jump _ | .call _ | .loadValToReg _ _ | .addValToReg _ _ | .loadRegToReg _ _
  | .orRegReg _ _ | .andRegReg _ _ | .xorRegReg _ _ | .addRegToReg _ _ | .subRegFromReg _ _ | .shiftRightReg _ _
  | .subnRegFromReg _ _ | .shiftLeftReg _ _ | .loadValToI _ | .jumpPlusV0 _ | .randomAndValToReg _ _
  | .drawSprite _ _ _ | .loadDelayTimerToReg _ | .loadKeyToReg _ | .loadRegToDelayTimer _ | .loadRegToSoundTimer _
  | .addRegToI _ | .loadSpriteLocationToI _ | .loadRegBcdToMem _ | .loadRegsToMem _ | .loadMemToRegs _ => false

end Sys2Proof
end

