-- ==== Sys2Proof/WellFormed.lean ====
section
/-! DEFINITION. Which instructions an instruction word can stand for. Every operand's range is in its type
(spec/30_encoding.md R104, R114); the one check left is `SysCall`'s: the words 0x00E0 and 0x00EE are ClearScreen and Return,
never SysCall (spec/30_encoding.md R108, spec/46_display_system.md R293). -/

namespace Sys2Proof

/-- `nnn` of a SysCall word: every value other than `0x0E0` and `0x0EE` (spec/46_display_system.md R293). -/
def sysCallFieldOk (nnn : Addr12) : Bool := nnn != 0x0E0#12 && nnn != 0x0EE#12

/-- The instructions that some word encodes. -/
def Instr.wellFormed : Instr → Bool
  | .sysCall nnn => sysCallFieldOk nnn
  | .clearScreen | .ret | .jump _ | .call _ | .skipIfRegValEqual _ _ | .skipIfRegValNotEqual _ _
  | .skipIfRegRegEqual _ _ | .loadValToReg _ _ | .addValToReg _ _ | .loadRegToReg _ _ | .orRegReg _ _ | .andRegReg _ _
  | .xorRegReg _ _ | .addRegToReg _ _ | .subRegFromReg _ _ | .shiftRightReg _ _ | .subnRegFromReg _ _
  | .shiftLeftReg _ _ | .skipIfRegRegNotEqual _ _ | .loadValToI _ | .jumpPlusV0 _ | .randomAndValToReg _ _
  | .drawSprite _ _ _ | .skipIfKeyPressed _ | .skipIfKeyNotPressed _ | .loadDelayTimerToReg _ | .loadKeyToReg _
  | .loadRegToDelayTimer _ | .loadRegToSoundTimer _ | .addRegToI _ | .loadSpriteLocationToI _ | .loadRegBcdToMem _
  | .loadRegsToMem _ | .loadMemToRegs _ => true

end Sys2Proof
end

