-- ==== Sys2Proof/Decode.lean ====
section
/-! DEFINITION. The decoder and the encoder (spec/30_encoding.md). A word is read as four nibbles, most significant first
(R100, R101); the operand fields are runs of nibbles (R102, R104); the first matching template wins (R108); a word that
matches none is unrecognized (R109, R111). The templates are the spec's, from general knowledge and not from its source:
UNVERIFIED (log 9), unsafe: every word would decode otherwise on a machine with other templates. -/

namespace Sys2Proof

/-! ### Nibbles of a word -/

/-- `w[15:12]`. -/
def Word.nibble3 (w : Word) : Nibble := w.extractLsb' 12 4
/-- `w[11:8]`. -/
def Word.nibble2 (w : Word) : Nibble := w.extractLsb' 8 4
/-- `w[7:4]`. -/
def Word.nibble1 (w : Word) : Nibble := w.extractLsb' 4 4
/-- `w[3:0]`. -/
def Word.nibble0 (w : Word) : Nibble := w.extractLsb' 0 4

/-- The byte at the lower address, bits 15:8 (spec/20_memory.md R72). -/
def Word.byteHigh (w : Word) : Byte := w.extractLsb' 8 8
/-- The byte at the higher address, bits 7:0 (spec/20_memory.md R72). -/
def Word.byteLow (w : Word) : Byte := w.extractLsb' 0 8
/-- The word of two bytes, `byteHigh ++ byteLow` (spec/20_memory.md R72). UNVERIFIED (log 9): the byte order is the spec's own
choice, unsafe on a little-endian machine. -/
def wordOfBytes (byteHigh byteLow : Byte) : Word := byteHigh ++ byteLow

/-- The register a 4-bit field selects (spec/10_state.md R31). -/
def regOf (f : Nibble) : Reg := f.toFin

/-- The 4-bit field that selects a register. -/
def fieldOf (x : Reg) : Nibble := BitVec.ofFin x

/-! ### The decoder -/

/-- The decoder's verdict: an operation, or `Unrecognized` with the whole raw word (spec/30_encoding.md R109). -/
inductive Decoded where
  | instr (i : Instr)
  | unrecognized (raw : Word)
  deriving DecidableEq, Repr

/-- The templates `0nnn`, `00E0`, `00EE`: the two fixed words are matched first (spec/30_encoding.md R108). -/
def decodeSys (nnn : Addr12) : Instr :=
  if nnn = 0x0E0#12 then .clearScreen
  else if nnn = 0x0EE#12 then .ret
  else .sysCall nnn

/-- The templates `8xyf`. -/
def decodeAlu (x y : Reg) (f : Nibble) : Option Instr :=
  if f = 0x0#4 then some (.loadRegToReg x y)
  else if f = 0x1#4 then some (.orRegReg x y)
  else if f = 0x2#4 then some (.andRegReg x y)
  else if f = 0x3#4 then some (.xorRegReg x y)
  else if f = 0x4#4 then some (.addRegToReg x y)
  else if f = 0x5#4 then some (.subRegFromReg x y)
  else if f = 0x6#4 then some (.shiftRightReg x y)
  else if f = 0x7#4 then some (.subnRegFromReg x y)
  else if f = 0xE#4 then some (.shiftLeftReg x y)
  else none

/-- The templates `Exff`. -/
def decodeKey (x : Reg) (f : Byte) : Option Instr :=
  if f = 0x9E#8 then some (.skipIfKeyPressed x)
  else if f = 0xA1#8 then some (.skipIfKeyNotPressed x)
  else none

/-- The templates `Fxff`. -/
def decodeMisc (x : Reg) (f : Byte) : Option Instr :=
  if f = 0x07#8 then some (.loadDelayTimerToReg x)
  else if f = 0x0A#8 then some (.loadKeyToReg x)
  else if f = 0x15#8 then some (.loadRegToDelayTimer x)
  else if f = 0x18#8 then some (.loadRegToSoundTimer x)
  else if f = 0x1E#8 then some (.addRegToI x)
  else if f = 0x29#8 then some (.loadSpriteLocationToI x)
  else if f = 0x33#8 then some (.loadRegBcdToMem x)
  else if f = 0x55#8 then some (.loadRegsToMem x)
  else if f = 0x65#8 then some (.loadMemToRegs x)
  else none

/-- The operation that four nibbles `d3 d2 d1 d0` select, if any: fields `x = d2`, `y = d1`, `n = d0`, `kk = d1 d0`,
`nnn = d2 d1 d0` (spec/30_encoding.md R104). -/
def decodeNibbles (d3 d2 d1 d0 : Nibble) : Option Instr :=
  let x := regOf d2
  let y := regOf d1
  let kk : Byte := d1 ++ d0
  let nnn : Addr12 := d2 ++ d1 ++ d0
  if d3 = 0x0#4 then some (decodeSys nnn)
  else if d3 = 0x1#4 then some (.jump nnn)
  else if d3 = 0x2#4 then some (.call nnn)
  else if d3 = 0x3#4 then some (.skipIfRegValEqual x kk)
  else if d3 = 0x4#4 then some (.skipIfRegValNotEqual x kk)
  else if d3 = 0x5#4 then (if d0 = 0x0#4 then some (.skipIfRegRegEqual x y) else none)
  else if d3 = 0x6#4 then some (.loadValToReg x kk)
  else if d3 = 0x7#4 then some (.addValToReg x kk)
  else if d3 = 0x8#4 then decodeAlu x y d0
  else if d3 = 0x9#4 then (if d0 = 0x0#4 then some (.skipIfRegRegNotEqual x y) else none)
  else if d3 = 0xA#4 then some (.loadValToI nnn)
  else if d3 = 0xB#4 then some (.jumpPlusV0 nnn)
  else if d3 = 0xC#4 then some (.randomAndValToReg x kk)
  else if d3 = 0xD#4 then some (.drawSprite x y d0)
  else if d3 = 0xE#4 then decodeKey x kk
  else decodeMisc x kk

/-- Decoding a word: total, a pure function of the word (spec/30_encoding.md R109, R110). -/
def decodeWord (w : Word) : Decoded :=
  match decodeNibbles w.nibble3 w.nibble2 w.nibble1 w.nibble0 with
  | some i => .instr i
  | none => .unrecognized w

/-- `decode(byteHigh, byteLow)` (spec/30_encoding.md R109), total on any two bytes. -/
def decode (byteHigh byteLow : Byte) : Decoded := decodeWord (wordOfBytes byteHigh byteLow)

/-- What the decoder reads from the instruction whose bits are `w`, numbered as spec/opcode_table.json numbers them (an
instruction is one 16-bit word, so a table row gives all its bits); the word is laid out in memory high byte first. -/
def decodeTableWord (nbits w : Nat) : Option Instr :=
  let word : Word := BitVec.ofNat 16 (w % 2 ^ nbits)
  match decode word.byteHigh word.byteLow with
  | .instr i => some i
  | .unrecognized _ => none

/-! ### The encoder -/

/-- Format `NNN` (spec/30_encoding.md R103). -/
def encodeNNN (op : Nibble) (nnn : Addr12) : Word := op ++ nnn
/-- Format `XKK`, and `XFN` with its two literal nibbles as `kk`. -/
def encodeXKK (op : Nibble) (x : Reg) (kk : Byte) : Word := op ++ fieldOf x ++ kk
/-- Format `XYN`. -/
def encodeXYN (op : Nibble) (x y : Reg) (n : Nibble) : Word := op ++ fieldOf x ++ fieldOf y ++ n

/-- The word of an instruction: each operand in its field of the row's template (spec/30_encoding.md R103, R107, R114). -/
def encode : Instr → Word
  | .clearScreen => 0x00E0#16
  | .ret => 0x00EE#16
  | .sysCall nnn => encodeNNN 0x0 nnn
  | .jump nnn => encodeNNN 0x1 nnn
  | .call nnn => encodeNNN 0x2 nnn
  | .skipIfRegValEqual x kk => encodeXKK 0x3 x kk
  | .skipIfRegValNotEqual x kk => encodeXKK 0x4 x kk
  | .skipIfRegRegEqual x y => encodeXYN 0x5 x y 0x0
  | .loadValToReg x kk => encodeXKK 0x6 x kk
  | .addValToReg x kk => encodeXKK 0x7 x kk
  | .loadRegToReg x y => encodeXYN 0x8 x y 0x0
  | .orRegReg x y => encodeXYN 0x8 x y 0x1
  | .andRegReg x y => encodeXYN 0x8 x y 0x2
  | .xorRegReg x y => encodeXYN 0x8 x y 0x3
  | .addRegToReg x y => encodeXYN 0x8 x y 0x4
  | .subRegFromReg x y => encodeXYN 0x8 x y 0x5
  | .shiftRightReg x y => encodeXYN 0x8 x y 0x6
  | .subnRegFromReg x y => encodeXYN 0x8 x y 0x7
  | .shiftLeftReg x y => encodeXYN 0x8 x y 0xE
  | .skipIfRegRegNotEqual x y => encodeXYN 0x9 x y 0x0
  | .loadValToI nnn => encodeNNN 0xA nnn
  | .jumpPlusV0 nnn => encodeNNN 0xB nnn
  | .randomAndValToReg x kk => encodeXKK 0xC x kk
  | .drawSprite x y n => encodeXYN 0xD x y n
  | .skipIfKeyPressed x => encodeXKK 0xE x 0x9E
  | .skipIfKeyNotPressed x => encodeXKK 0xE x 0xA1
  | .loadDelayTimerToReg x => encodeXKK 0xF x 0x07
  | .loadKeyToReg x => encodeXKK 0xF x 0x0A
  | .loadRegToDelayTimer x => encodeXKK 0xF x 0x15
  | .loadRegToSoundTimer x => encodeXKK 0xF x 0x18
  | .addRegToI x => encodeXKK 0xF x 0x1E
  | .loadSpriteLocationToI x => encodeXKK 0xF x 0x29
  | .loadRegBcdToMem x => encodeXKK 0xF x 0x33
  | .loadRegsToMem x => encodeXKK 0xF x 0x55
  | .loadMemToRegs x => encodeXKK 0xF x 0x65

/-- The two bytes of an instruction as memory holds them, high byte first (spec/30_encoding.md R114). -/
def encodeBytes (i : Instr) : List Byte := [(encode i).byteHigh, (encode i).byteLow]

/-! ### The decode table -/

/-- A row of the decode table (spec/30_encoding.md R107): a word `w` matches it when `w & mask = pattern` (R108). -/
structure OpcodeRow where
  name    : String
  mask    : Word
  pattern : Word
  deriving DecidableEq, Repr

/-- The match rule of spec/30_encoding.md R108. -/
def OpcodeRow.matchesWord (r : OpcodeRow) (w : Word) : Bool := w &&& r.mask == r.pattern

/-- Rows 1 to 18 of spec/30_encoding.md R107. -/
def opcodeRowsLow : List OpcodeRow :=
  [⟨"ClearScreen", 0xFFFF, 0x00E0⟩, ⟨"Return", 0xFFFF, 0x00EE⟩, ⟨"SysCall", 0xF000, 0x0000⟩,
   ⟨"Jump", 0xF000, 0x1000⟩, ⟨"Call", 0xF000, 0x2000⟩, ⟨"SkipIfRegValEqual", 0xF000, 0x3000⟩,
   ⟨"SkipIfRegValNotEqual", 0xF000, 0x4000⟩, ⟨"SkipIfRegRegEqual", 0xF00F, 0x5000⟩,
   ⟨"LoadValToReg", 0xF000, 0x6000⟩, ⟨"AddValToReg", 0xF000, 0x7000⟩, ⟨"LoadRegToReg", 0xF00F, 0x8000⟩,
   ⟨"OrRegReg", 0xF00F, 0x8001⟩, ⟨"AndRegReg", 0xF00F, 0x8002⟩, ⟨"XorRegReg", 0xF00F, 0x8003⟩,
   ⟨"AddRegToReg", 0xF00F, 0x8004⟩, ⟨"SubRegFromReg", 0xF00F, 0x8005⟩, ⟨"ShiftRightReg", 0xF00F, 0x8006⟩,
   ⟨"SubnRegFromReg", 0xF00F, 0x8007⟩]

/-- Rows 19 to 35 of spec/30_encoding.md R107. -/
def opcodeRowsHigh : List OpcodeRow :=
  [⟨"ShiftLeftReg", 0xF00F, 0x800E⟩, ⟨"SkipIfRegRegNotEqual", 0xF00F, 0x9000⟩, ⟨"LoadValToI", 0xF000, 0xA000⟩,
   ⟨"JumpPlusV0", 0xF000, 0xB000⟩, ⟨"RandomAndValToReg", 0xF000, 0xC000⟩, ⟨"DrawSprite", 0xF000, 0xD000⟩,
   ⟨"SkipIfKeyPressed", 0xF0FF, 0xE09E⟩, ⟨"SkipIfKeyNotPressed", 0xF0FF, 0xE0A1⟩,
   ⟨"LoadDelayTimerToReg", 0xF0FF, 0xF007⟩, ⟨"LoadKeyToReg", 0xF0FF, 0xF00A⟩,
   ⟨"LoadRegToDelayTimer", 0xF0FF, 0xF015⟩, ⟨"LoadRegToSoundTimer", 0xF0FF, 0xF018⟩,
   ⟨"AddRegToI", 0xF0FF, 0xF01E⟩, ⟨"LoadSpriteLocationToI", 0xF0FF, 0xF029⟩,
   ⟨"LoadRegBcdToMem", 0xF0FF, 0xF033⟩, ⟨"LoadRegsToMem", 0xF0FF, 0xF055⟩, ⟨"LoadMemToRegs", 0xF0FF, 0xF065⟩]

/-- The decode table of spec/30_encoding.md R107, in match order: what the decoder above must agree with. -/
def opcodeTable : List OpcodeRow := opcodeRowsLow ++ opcodeRowsHigh

/-- The first row that matches a word (spec/30_encoding.md R108). -/
def firstRow (w : Word) : Option OpcodeRow := opcodeTable.find? (fun r => r.matchesWord w)

/-! ### Assembly spelling -/

/-- A register operand that fits its field; others are refused by the assembler (spec/30_encoding.md R114). -/
def fitReg (n : Nat) : Option Reg := if h : n < 16 then some ⟨n, h⟩ else none
/-- A count operand `n` that fits its field (spec/30_encoding.md R114). -/
def fitCount (n : Nat) : Option Nibble := if n < 16 then some (BitVec.ofNat 4 n) else none
/-- An immediate byte that fits its field (spec/30_encoding.md R114). -/
def fitByte (n : Nat) : Option Byte := if n < 0x100 then some (BitVec.ofNat 8 n) else none
/-- An address that fits its field (spec/30_encoding.md R114). -/
def fitAddr (n : Nat) : Option Addr12 := if n < 0x1000 then some (BitVec.ofNat 12 n) else none

/-- One hex digit, capital letters as the spec writes them. -/
def hexDigit (d : Nibble) : String := String.ofList [("0123456789ABCDEF".toList).getD d.toNat '0']
/-- `V0`..`VF` (spec/30_encoding.md R113). -/
def asmReg (x : Reg) : String := "V" ++ hexDigit (fieldOf x)
/-- An immediate byte, `0x..`. -/
def asmByte (kk : Byte) : String := "0x" ++ hexDigit (kk.extractLsb' 4 4) ++ hexDigit (kk.extractLsb' 0 4)
/-- An address, `0x...`. -/
def asmAddr (nnn : Addr12) : String :=
  "0x" ++ hexDigit (nnn.extractLsb' 8 4) ++ hexDigit (nnn.extractLsb' 4 4) ++ hexDigit (nnn.extractLsb' 0 4)

/-- The operands of a line, comma separated, in the template's field order. -/
def asmOperands : Instr → String
  | .clearScreen | .ret => ""
  | .sysCall nnn | .jump nnn | .call nnn | .loadValToI nnn | .jumpPlusV0 nnn => " " ++ asmAddr nnn
  | .skipIfRegValEqual x kk | .skipIfRegValNotEqual x kk | .loadValToReg x kk | .addValToReg x kk
  | .randomAndValToReg x kk => " " ++ asmReg x ++ ", " ++ asmByte kk
  | .skipIfRegRegEqual x y | .loadRegToReg x y | .orRegReg x y | .andRegReg x y | .xorRegReg x y | .addRegToReg x y
  | .subRegFromReg x y | .shiftRightReg x y | .subnRegFromReg x y | .shiftLeftReg x y
  | .skipIfRegRegNotEqual x y => " " ++ asmReg x ++ ", " ++ asmReg y
  | .drawSprite x y n => " " ++ asmReg x ++ ", " ++ asmReg y ++ ", 0x" ++ hexDigit n
  | .skipIfKeyPressed x | .skipIfKeyNotPressed x | .loadDelayTimerToReg x | .loadKeyToReg x | .loadRegToDelayTimer x
  | .loadRegToSoundTimer x | .addRegToI x | .loadSpriteLocationToI x | .loadRegBcdToMem x | .loadRegsToMem x
  | .loadMemToRegs x => " " ++ asmReg x

/-- The assembly line of an instruction (spec/30_encoding.md R113). -/
def Instr.asm (i : Instr) : String := i.mnemonic ++ asmOperands i

end Sys2Proof
end

