-- ==== Sys2Proof/Config.lean ====
section
/-! DEFINITION. What is fixed for a machine and what the spec leaves open (spec/00_scope.md R9, R10): the fixed sizes,
the parameter FONT, the two parameters about calls and unrecognized words, and the free inputs of a step. An opaque
constant has no value that Lean can compute or prove: a claim holds whatever it is. -/

namespace Sys2Proof.Config

/-- `MEM_SIZE`, 4096 bytes (spec/00_scope.md R9). -/
abbrev memSize : Nat := 0x1000

/-- `STACK_DEPTH`, 16 entries (spec/00_scope.md R9). -/
abbrev stackDepth : Nat := 16

/-- The font's size, 80 bytes at address 0 (spec/00_scope.md R9). -/
abbrev fontSize : Nat := 80

/-- The address a program is loaded at and where the pc starts (spec/00_scope.md R9, spec/10_state.md R38). -/
abbrev loadAddress : Nat := 0x200

/-- What the parameter `FONT` leaves free: the 4 pixels of each of the 5 rows of the 16 hex digits, rows from the top, the
leftmost pixel in bit 3. The source gives the table's size and place but no bytes (spec/00_scope.md R10, D17); the layout
of the bytes is `glyphByte` and `font` in Machine/Ops.lean. UNVERIFIED (log 1): safe, a claim holds for every glyph. -/
opaque glyphRows : Vector (Vector Nibble 5) 16

/-- The parameter `P_RETURN_LINK` (spec/00_scope.md R10, D20): what `Call` pushes. -/
inductive ReturnLink where
  | atCall      -- the address of the Call word itself: the normative value
  | afterCall   -- the address after the Call word: the alternative value
  deriving DecidableEq, Repr

/-- The host policy `HOST_ON_UNRECOGNIZED` (spec/60_exceptions.md R313, D18). -/
inductive HostPolicy where
  | halt   -- the run ends
  | skip   -- the host writes pc + 2 and calls step again
  deriving DecidableEq, Repr, Inhabited

/-- What the host supplies at and before one step: the number of timer ticks that fall before it
(spec/60_exceptions.md R321), the keypad snapshot and the random byte (spec/40_execute_engine.md R140), the key that
`LoadKeyToReg` takes where it is pressed (spec/43_register_loads.md R216), and what the host does should the step's word be
unrecognized (spec/60_exceptions.md R313). -/
structure HostInput where
  ticks          : Nat
  keys           : Vector Bool 16
  rnd            : Byte
  pick           : Reg
  onUnrecognized : HostPolicy
  deriving DecidableEq, Repr, Inhabited

/-- The free input of the `n`-th step where the state queues none: any value (spec/93_implementation_defined.md U9 to U12,
U3). DESIGN CHOICE (log 2, log 3): safe, a claim holds for every sequence of inputs. -/
opaque hostInput : Nat → HostInput

end Sys2Proof.Config
end

