-- ==== Sys2Proof/Machine/State.lean ====
section
/-! DEFINITION. The state of the machine as plain data (spec/10_state.md, the table at its head and R30 to R54), the reasons
a step can stop, and the state after reset (spec/70_reset_and_hazards.md R340). -/

namespace Sys2Proof.Machine

/-- Memory (spec/20_memory.md R70): the cells that differ from the reset contents, addresses strictly rising; an address
not listed reads as the reset contents do (`initialByte`, in Ops.lean). -/
structure Memory where
  cells : List Host.Cell
  deriving DecidableEq, Repr

/-- The display (spec/10_state.md R50): 32 rows from the top, each 64 columns from the left; `true` is a lit pixel. -/
abbrev Display := Vector (Vector Bool 64) 32

/-- The model's own part of the state, not the spec's: the inputs of a step (spec/40_execute_engine.md R140) as plain data.
DESIGN CHOICE (log 2), safe: claims about all states are claims about all inputs. -/
structure HostSide where
  /-- The random byte of the step in progress (spec/40_execute_engine.md R140). -/
  rnd    : Byte
  /-- The key `LoadKeyToReg` takes in the step in progress, if it is pressed (spec/43_register_loads.md R216). -/
  pick   : Reg
  /-- Inputs that are already determined, one per coming step; none queued means every input is free. -/
  queued : List Config.HostInput
  /-- How many steps have begun: the argument of the free input `Config.hostInput`. -/
  drawn  : Nat
  deriving DecidableEq, Repr

end Sys2Proof.Machine

namespace Sys2Proof.Machine

/-- `MachineState` (spec/10_state.md), and the model's own `host`. -/
structure State where
  /-- `V0`..`VF` (R30). -/
  v       : Vector Byte 16
  /-- The index register `I` (R35). -/
  i       : Word
  /-- The program counter (R37). -/
  pc      : Word
  /-- The stack pointer, the entries in use, 0..16 (R43, R44). -/
  sp      : Fin 17
  /-- The call stack's slots (R42). -/
  stack   : Vector Word 16
  /-- The delay timer (R46). -/
  dt      : Byte
  /-- The sound timer (R47). -/
  st      : Byte
  /-- The key states, `true` is pressed (R49). -/
  keypad  : Vector Bool 16
  /-- The display (R50). -/
  display : Display
  /-- Memory (spec/20_memory.md R70). -/
  mem     : Memory
  /-- The inputs of a step: the model's own. -/
  host    : HostSide
  deriving DecidableEq, Repr

/-- Why a step stops (spec/60_exceptions.md R310): the four final faults, and an unrecognized word at which the host halts.
Each discards every write of the step (spec/40_execute_engine.md R147). -/
inductive Fault where
  /-- `Call` with 16 entries on the stack (R311). Raised by `execCall`; the spec's own final fault, so safe. -/
  | stackOverflow
  /-- `Return` with an empty stack (R312). Raised by `execReturn`; the spec's own final fault, so safe. -/
  | stackUnderflow
  /-- An access at or above 0x1000, with the lowest such address (R314). Raised by the fetch and by `execDrawSprite`,
  `execLoadRegBcdToMem`, `execLoadRegsToMem`, `execLoadMemToRegs`; the spec's own final fault, so safe. -/
  | addressFault (a : Nat)
  /-- A key number above 15 (R315). Raised by `execSkipIfKeyPressed` and `execSkipIfKeyNotPressed`; the spec's own final
  fault, so safe. -/
  | keyIndexFault (k : Byte)
  /-- A word that matches no template, where the host's policy is HALT (R313). Raised by `step`, through `afterUnrecognized`;
  the run ends as the spec says, so safe. -/
  | unrecognized (raw : Word)
  deriving DecidableEq, Repr

/-- Why an instruction has no meaning in the model. -/
inductive Refusal where
  /-- An instruction whose meaning is not written: raised by an arm of `exec`. Safe: nothing is claimed of it. No arm
  answers so in this model. -/
  | notModelled (mnemonic : String)
  deriving DecidableEq, Repr

/-- The machine right after reset (spec/70_reset_and_hazards.md R340): the pc at 0x200, memory as `initialByte` gives it,
everything else zero or false. The fields of `host` are the model's own: DESIGN CHOICE (log 2), unsafe if a claim rested on
them; each step overwrites `rnd` and `pick` before anything reads them, and nothing is queued. -/
def State.reset : State where
  v       := Vector.replicate 16 0
  i       := 0
  pc      := 0x200
  sp      := 0
  stack   := Vector.replicate 16 0
  dt      := 0
  st      := 0
  keypad  := Vector.replicate 16 false
  display := Vector.replicate 32 (Vector.replicate 64 false)
  mem     := ⟨[]⟩
  host    := ⟨0, 0, [], 0⟩

end Sys2Proof.Machine
end

