-- ==== Sys2Proof/Machine/Ops.lean ====
section
/-! DEFINITION. The named operations over registers, memory, the call stack and the display, ending a step, and the
instruction fetch (spec/00_scope.md R13 to R15; spec/20_memory.md). -/

namespace Sys2Proof.Machine

/-! ### Memory -/

/-- One byte of a glyph: the row's 4 pixels in bits 7..4, bits 3..0 zero (spec/44_index_memory.md R235). The layout is the
spec's own (G8). UNVERIFIED (log 13), unsafe on a font that uses the low bits. -/
def glyphByte (row : Nibble) : Byte := row ++ (0 : Nibble)

/-- The bytes of 16 glyphs of 5 rows: the glyph of digit `d` from byte `5 * d` on, its top row first
(spec/44_index_memory.md R235). -/
def fontOf (rows : Vector (Vector Nibble 5) 16) : Vector Byte Config.fontSize :=
  Vector.ofFn fun k => glyphByte (rows[k.val / 5]'(Nat.div_lt_of_lt_mul k.isLt))[k.val % 5]

/-- The parameter `FONT`, over the free glyphs (spec/00_scope.md R10, spec/60_exceptions.md R326). -/
def font : Vector Byte Config.fontSize := fontOf Config.glyphRows

/-- What memory holds at reset, and what an address not listed reads as: the font at 0x000..0x04F, zero elsewhere
(spec/20_memory.md R71, spec/70_reset_and_hazards.md R340). -/
def initialByte (a : Nat) : Byte := if h : a < Config.fontSize then font[a]'h else 0

/-- The byte a list of cells gives an address. -/
def readCells : List Host.Cell → Nat → Byte
  | [], a => initialByte a
  | (b, x) :: rest, a => if a = b then x else readCells rest a

/-- The list with the cell `(a, x)` at its place. -/
def insertCell (a : Nat) (x : Byte) : List Host.Cell → List Host.Cell
  | [] => [(a, x)]
  | (b, y) :: rest =>
    if a < b then (a, x) :: (b, y) :: rest
    else if a = b then (a, x) :: rest
    else (b, y) :: insertCell a x rest

/-- The list without the address `a`. -/
def eraseCell (a : Nat) : List Host.Cell → List Host.Cell
  | [] => []
  | (b, y) :: rest => if a = b then eraseCell a rest else (b, y) :: eraseCell a rest

/-- `MemRead(a, 1)` (spec/00_scope.md R14); the bound is checked by its callers (`blockFits`, `fetchWord`). -/
def Memory.read (m : Memory) (a : Nat) : Byte := readCells m.cells a

/-- `MemWrite(a, 1, x)` (spec/00_scope.md R14); the bound is checked by its callers. The list stays canonical. -/
def Memory.write (m : Memory) (a : Nat) (x : Byte) : Memory :=
  if x = initialByte a then ⟨eraseCell a m.cells⟩ else ⟨insertCell a x m.cells⟩

/-- Writes at ascending addresses from `a` (spec/44_index_memory.md R233). -/
def Memory.writeBytes (m : Memory) (a : Nat) : List Byte → Memory
  | [] => m
  | x :: xs => (m.write a x).writeBytes (a + 1) xs

/-- The `n` bytes from `a`, lowest address first. -/
def Memory.readBytes (m : Memory) (a n : Nat) : List Byte := (List.range n).map fun k => m.read (a + k)

/-- The cells lie in memory, at addresses strictly rising from `lo` on, and none holds what its address reads as when not
listed. -/
def cellsCanonical (lo : Nat) : List Host.Cell → Bool
  | [] => true
  | (a, x) :: rest =>
    decide (lo ≤ a) && decide (a < Config.memSize) && decide (x ≠ initialByte a) && cellsCanonical (a + 1) rest

/-- The canonical form of memory. -/
def Memory.wf (m : Memory) : Bool := cellsCanonical 0 m.cells

/-! ### Registers -/

/-- `V[x]`. -/
def State.reg (s : State) (x : Reg) : Byte := s.v[x.val]
/-- `V[x] <- b`. No register is hardwired (spec/10_state.md R30). -/
def State.setReg (s : State) (x : Reg) (b : Byte) : State := { s with v := s.v.set x.val b }
/-- `VF <- b`, the flag write (spec/10_state.md R33). -/
def State.setFlag (s : State) (b : Byte) : State := s.setReg VF b
/-- The result to `V[x]`, then the flag to `VF`: with `x = 15` the flag stays (spec/45_alu.md R271). -/
def State.setRegFlag (s : State) (x : Reg) (result flag : Byte) : State := (s.setReg x result).setFlag flag
/-- `I <- a`. -/
def State.setI (s : State) (a : Word) : State := { s with i := a }
/-- `pc <- a`. -/
def State.setPc (s : State) (a : Word) : State := { s with pc := a }
/-- `DT <- b`. -/
def State.setDt (s : State) (b : Byte) : State := { s with dt := b }
/-- `ST <- b`. -/
def State.setSt (s : State) (b : Byte) : State := { s with st := b }
/-- A new display. -/
def State.setDisplay (s : State) (d : Display) : State := { s with display := d }
/-- A new memory. -/
def State.setMem (s : State) (m : Memory) : State := { s with mem := m }

/-- The Regular advance, `pc <- pc +_16 2` (spec/40_execute_engine.md R144). -/
def State.advance (s : State) : State := s.setPc (s.pc + 2)

/-- A skip's effect: `pc <- pc +_16 2` if the condition holds (spec/40_execute_engine.md R146). -/
def State.skipIf (s : State) (c : Bool) : State := s.setPc (if c then s.pc + 2 else s.pc)

/-! ### The call stack -/

/-- `stack[SP] <- link; SP <- SP + 1` (spec/10_state.md R43), or nothing to push on with 16 entries in use (R44). -/
def State.push (s : State) (link : Word) : Option State :=
  if h : s.sp.val < Config.stackDepth then
    some { s with stack := s.stack.set s.sp.val link h, sp := ⟨s.sp.val + 1, Nat.succ_lt_succ h⟩ }
  else none

/-- `SP <- SP - 1; v <- stack[SP]` (spec/10_state.md R43), or nothing to pop with no entry in use (R44). The slot keeps its
value. -/
def State.pop (s : State) : Option (Word × State) :=
  if h : 0 < s.sp.val then
    some (s.stack[s.sp.val - 1]'(by have := s.sp.isLt; omega), { s with sp := ⟨s.sp.val - 1, by have := s.sp.isLt; omega⟩ })
  else none

/-! ### The display -/

/-- A pixel's place: row, then column (spec/10_state.md R50). -/
abbrev Pixel := Fin 32 × Fin 64

/-- `display[r][c]`. -/
def Display.pixel (d : Display) (p : Pixel) : Bool := (d[p.1.val])[p.2.val]

/-- `display[r][c] <- not display[r][c]`. -/
def Display.flip (d : Display) (p : Pixel) : Display := d.set p.1.val ((d[p.1.val]).set p.2.val (!d.pixel p))

/-- Every pixel dark. -/
def Display.clear : Display := Vector.replicate 32 (Vector.replicate 64 false)

/-! ### Ending a step -/

/-- What a meaning answers. -/
abbrev Result := Host.Outcome State Fault Refusal

/-- `retire` of a Regular operation: its effect, then the advance (spec/00_scope.md R15, spec/40_execute_engine.md R144). -/
def retire (s : State) : Result := .next s.advance

/-- `retire` of a FlowControl operation: no advance (spec/40_execute_engine.md R145). -/
def retireFlow (s : State) : Result := .next s

/-- `raise E(info)`: the step stops and every write of it is discarded (spec/00_scope.md R15, spec/40_execute_engine.md
R147). The spec's only way of taking an exception: nothing is saved, there is no handler, and no return from it
(spec/60_exceptions.md R319). The state it returns to the host is the one the step began with, `beginStep s`
(`stepReport`, log 11). -/
def raise (f : Fault) : Result := .fault f

/-- `retire` of a Regular operation whose effect is there, or `await`: the step ends with `AwaitInput` and no state change,
the pc included; a hold and no error, so the run goes on from the same state (spec/00_scope.md R15,
spec/40_execute_engine.md R152, spec/60_exceptions.md R316). DEDUCED (log 12), safe. -/
def retireOrAwait (effect : Option State) (s0 : State) : Result :=
  .next (match effect with
    | some t => t.advance
    | none => s0)

/-! ### Bounds and the fetch -/

/-- Every byte of a block lies in memory (spec/20_memory.md R75; spec/44_index_memory.md R233); a block of no bytes does.
Addresses are unbounded integers and never wrap. -/
def blockFits (base len : Nat) : Bool := decide (len = 0) || decide (base + len ≤ Config.memSize)

/-- The lowest out-of-range address of a block that does not fit, `max(base, 0x1000)` (spec/44_index_memory.md R232). -/
def firstOutside (base : Nat) : Nat := max base Config.memSize

/-- The check of a multi-byte operation before any access: the operation where the block fits, `AddressFault` of its lowest
out-of-range address where not (spec/44_index_memory.md R233). -/
def withBlock (base len : Nat) (operation : Result) : Result :=
  if blockFits base len then operation else raise (.addressFault (firstOutside base))

/-- `Fetch(pc)`: the word at the pc, the byte at the lower address high, or the lowest out-of-range address of its two
(spec/20_memory.md R72, R75). An odd pc fetches as any other (R74). -/
def fetchWord (s : State) : Except Nat Word :=
  if blockFits s.pc.toNat 2 then
    .ok (wordOfBytes (s.mem.read s.pc.toNat) (s.mem.read (s.pc.toNat + 1)))
  else .error (firstOutside s.pc.toNat)

end Sys2Proof.Machine
end

