-- ==== Sys2Proof/Machine/Operands.lean ====
section
/-! DEFINITION. What the operands of the instructions stand for: jump targets, key numbers, the key a wait takes, the
decimal digits, the registers of a block, the pixels of a sprite. -/

namespace Sys2Proof.Machine

/-- The target of Jump and Call, and the value of LoadValToI: `zext_16(nnn)` (spec/30_encoding.md R105). -/
def addressOf (nnn : Addr12) : Word := zext16 nnn

/-- The address of the font glyph of a digit, `5 * V[x]`, for every value (spec/44_index_memory.md R231). -/
def glyphAddress (d : Byte) : Word := 5 * zext16 d

/-- The key a register's value names: none above 15 (spec/42_skip.md R194). -/
def keyNumber (k : Byte) : Option Reg := if h : k.toNat < 16 then some ⟨k.toNat, h⟩ else none

/-- `keypad[k]`. -/
def State.key (s : State) (k : Reg) : Bool := s.keypad[k.val]

/-- The key numbers, lowest first. -/
def keyNumbers : List Reg := [0, 1, 2, 3, 4, 5, 6, 7, 8, 9, 10, 11, 12, 13, 14, 15]

/-- The lowest pressed key, if any is pressed. -/
def lowestPressed (keys : Vector Bool 16) : Option Reg := keyNumbers.find? fun k => keys[k.val]

/-- Some pressed key, if any is pressed: the step's free choice `pick` where that is pressed, the lowest otherwise, so that
every pressed key can be taken (spec/43_register_loads.md R216). -/
def choosePressed (keys : Vector Bool 16) (pick : Reg) : Option Reg :=
  if keys[pick.val] then some pick else lowestPressed keys

/-- The hundreds, tens and units digit of a byte, in the order they are stored (spec/44_index_memory.md R232). -/
def bcdBytes (b : Byte) : List Byte := [b / 100, (b / 10) % 10, b % 10]

/-- How many registers `V0..Vx` are: `x + 1` (spec/44_index_memory.md R234). -/
def blockLength (x : Reg) : Nat := x.val + 1

/-- The values of `V0..Vx` in order (spec/44_index_memory.md R234). -/
def State.regsUpTo (s : State) (x : Reg) : List Byte := s.v.toList.take (blockLength x)

/-- `V[k] <- memory[I + k]` for `k` in 0..x; the registers above `x` keep their values (spec/44_index_memory.md R236). -/
def State.loadRegs (s : State) (x : Reg) : State :=
  { s with v := Vector.ofFn fun k : Fin 16 => if k ≤ x then s.mem.read (s.i.toNat + k.val) else s.v[k.val] }

/-! ### Sprites -/

/-- The pixel for display coordinates that wrap modulo 32 and 64 (spec/46_display_system.md R291). -/
def wrapPixel (row col : Nat) : Pixel :=
  (⟨row % 32, Nat.mod_lt _ (by decide)⟩, ⟨col % 64, Nat.mod_lt _ (by decide)⟩)

/-- The pixels of one sprite byte's set bits, left to right: column `c` is bit `7 - c` (spec/46_display_system.md R291).
UNVERIFIED (log 9): the bit order is the spec's own choice, unsafe on a machine that mirrors it. -/
def rowPixels (b : Byte) (row col : Nat) : List Pixel :=
  (List.range 8).filterMap fun c => if b.getLsbD (7 - c) then some (wrapPixel row (col + c)) else none

/-- The pixels of a sprite's set bits, row by row (spec/46_display_system.md R291, R292). -/
def spritePixels : List Byte → Nat → Nat → List Pixel
  | [], _, _ => []
  | b :: rest, row, col => rowPixels b row col ++ spritePixels rest (row + 1) col

/-- One set bit of a sprite: a collision if its pixel is lit, and the pixel flips (spec/46_display_system.md R292). -/
def xorPixel (d : Display × Bool) (p : Pixel) : Display × Bool := (d.1.flip p, d.2 || d.1.pixel p)

/-- A draw: the pixels of the set bits in order, from no collision (spec/46_display_system.md R292). -/
def drawPixels (d : Display) (ps : List Pixel) : Display × Bool := ps.foldl xorPixel (d, false)

/-- The sprite `DrawSprite` draws: `n` bytes from `I`, at column `V[x]` and row `V[y]`, all read before anything is written
(spec/46_display_system.md R292). -/
def State.spriteOf (s : State) (x y : Reg) (n : Nibble) : List Pixel :=
  spritePixels (s.mem.readBytes s.i.toNat n.toNat) (s.reg y).toNat (s.reg x).toNat

end Sys2Proof.Machine
end

