-- ==== Sys2Proof/Machine/Alu.lean ====
section
/-! DEFINITION. The ALU operations (spec/45_alu.md): 8-bit, modulo 256 (R260); operands first, then the result to `V[x]`,
then the flag to `VF` (R271). -/

namespace Sys2Proof.Machine

/-- OrRegReg (spec/45_alu.md R261). -/
def execOrRegReg (x y : Reg) (s : State) : Result := retire (s.setReg x (s.reg x ||| s.reg y))

/-- AndRegReg (spec/45_alu.md R262). -/
def execAndRegReg (x y : Reg) (s : State) : Result := retire (s.setReg x (s.reg x &&& s.reg y))

/-- XorRegReg (spec/45_alu.md R263). -/
def execXorRegReg (x y : Reg) (s : State) : Result := retire (s.setReg x (s.reg x ^^^ s.reg y))

/-- AddValToReg (spec/45_alu.md R264): no flag. -/
def execAddValToReg (x : Reg) (kk : Byte) (s : State) : Result := retire (s.setReg x (s.reg x + kk))

/-- RandomAndValToReg (spec/45_alu.md R265): the step's random byte, masked. -/
def execRandomAndValToReg (x : Reg) (kk : Byte) (s : State) : Result := retire (s.setReg x (s.host.rnd &&& kk))

/-- AddRegToReg (spec/45_alu.md R266). -/
def execAddRegToReg (x y : Reg) (s : State) : Result :=
  retire (s.setRegFlag x (s.reg x + s.reg y) (carryFlag (s.reg x) (s.reg y)))

/-- SubRegFromReg (spec/45_alu.md R267). -/
def execSubRegFromReg (x y : Reg) (s : State) : Result :=
  retire (s.setRegFlag x (s.reg x - s.reg y) (notBorrowFlag (s.reg x) (s.reg y)))

/-- SubnRegFromReg (spec/45_alu.md R268). -/
def execSubnRegFromReg (x y : Reg) (s : State) : Result :=
  retire (s.setRegFlag x (s.reg y - s.reg x) (notBorrowFlag (s.reg y) (s.reg x)))

/-- ShiftRightReg (spec/45_alu.md R269): `V[x]` in place; the field `y` is ignored. -/
def execShiftRightReg (x _y : Reg) (s : State) : Result :=
  retire (s.setRegFlag x (s.reg x >>> 1) (shiftRightFlag (s.reg x)))

/-- ShiftLeftReg (spec/45_alu.md R270): `V[x]` in place; the field `y` is ignored. -/
def execShiftLeftReg (x _y : Reg) (s : State) : Result :=
  retire (s.setRegFlag x (s.reg x <<< 1) (shiftLeftFlag (s.reg x)))

end Sys2Proof.Machine
end

