-- ==== Sys2Proof/Machine/DisplaySystem.lean ====
section
/-! DEFINITION. The display operations and SysCall (spec/46_display_system.md). -/

namespace Sys2Proof.Machine

/-- ClearScreen (spec/46_display_system.md R290). -/
def execClearScreen (s : State) : Result := retire (s.setDisplay Display.clear)

/-- DrawSprite (spec/46_display_system.md R292): all `n` bytes in memory or nothing happens; the sprite's set bits flip their
pixels, wrapping; `VF` receives the collision flag last. -/
def execDrawSprite (x y : Reg) (n : Nibble) (s : State) : Result :=
  withBlock s.i.toNat n.toNat
    (retire ((s.setDisplay (drawPixels s.display (s.spriteOf x y n)).1).setFlag
      (collisionFlag (drawPixels s.display (s.spriteOf x y n)).2)))

/-- SysCall (spec/46_display_system.md R293): no effect but the advance; `nnn` is ignored. -/
def execSysCall (_nnn : Addr12) (s : State) : Result := retire s

end Sys2Proof.Machine
end

