-- ==== Sys2Proof/Machine/FlowControl.lean ====
section
/-! DEFINITION. The four FlowControl operations (spec/41_flow_control.md): each sets the pc itself and no advance follows. -/

namespace Sys2Proof.Machine

/-- `P_RETURN_LINK`, at its normative value (spec/00_scope.md R10, D20). UNVERIFIED (log 4), unsafe if the intended machine
returns past its call: the spec warns of it in spec/41_flow_control.md. -/
def returnLink : Config.ReturnLink := .atCall

/-- The link a call pushes (spec/41_flow_control.md R172). -/
def linkOf (p : Config.ReturnLink) (pc : Word) : Word :=
  match p with
  | .atCall => pc
  | .afterCall => pc + 2

/-- A call under either value of `P_RETURN_LINK` (spec/41_flow_control.md R172). -/
def callWith (p : Config.ReturnLink) (nnn : Addr12) (s : State) : Result :=
  match s.push (linkOf p s.pc) with
  | some t => retireFlow (t.setPc (addressOf nnn))
  | none => raise .stackOverflow

/-- Jump (spec/41_flow_control.md R170). -/
def execJump (nnn : Addr12) (s : State) : Result := retireFlow (s.setPc (addressOf nnn))

/-- JumpPlusV0 (spec/41_flow_control.md R171). -/
def execJumpPlusV0 (nnn : Addr12) (s : State) : Result := retireFlow (s.setPc (addressOf nnn + zext16 (s.reg 0)))

/-- Call (spec/41_flow_control.md R172). -/
def execCall (nnn : Addr12) (s : State) : Result := callWith returnLink nnn s

/-- Return (spec/41_flow_control.md R173). -/
def execReturn (s : State) : Result :=
  match s.pop with
  | some (link, t) => retireFlow (t.setPc link)
  | none => raise .stackUnderflow

end Sys2Proof.Machine
end

