-- ==== Sys2Proof/Machine/IndexMemory.lean ====
section
/-! DEFINITION. The index register and the memory operations (spec/44_index_memory.md). None writes `VF` as a flag, and the
block operations leave `I` unchanged. -/

namespace Sys2Proof.Machine

/-- LoadValToI (spec/44_index_memory.md R230). -/
def execLoadValToI (nnn : Addr12) (s : State) : Result := retire (s.setI (addressOf nnn))

/-- LoadSpriteLocationToI (spec/44_index_memory.md R231). -/
def execLoadSpriteLocationToI (x : Reg) (s : State) : Result := retire (s.setI (glyphAddress (s.reg x)))

/-- LoadRegBcdToMem (spec/44_index_memory.md R232). -/
def execLoadRegBcdToMem (x : Reg) (s : State) : Result :=
  withBlock s.i.toNat 3 (retire (s.setMem (s.mem.writeBytes s.i.toNat (bcdBytes (s.reg x)))))

/-- LoadRegsToMem (spec/44_index_memory.md R234). -/
def execLoadRegsToMem (x : Reg) (s : State) : Result :=
  withBlock s.i.toNat (blockLength x) (retire (s.setMem (s.mem.writeBytes s.i.toNat (s.regsUpTo x))))

/-- LoadMemToRegs (spec/44_index_memory.md R236). -/
def execLoadMemToRegs (x : Reg) (s : State) : Result :=
  withBlock s.i.toNat (blockLength x) (retire (s.loadRegs x))

/-- AddRegToI (spec/44_index_memory.md R237): 16-bit wrap-around, no flag. -/
def execAddRegToI (x : Reg) (s : State) : Result := retire (s.setI (s.i + zext16 (s.reg x)))

end Sys2Proof.Machine
end

