-- ==== Sys2Proof/Machine/RegisterLoads.lean ====
section
/-! DEFINITION. Register loads, timers and the key wait (spec/43_register_loads.md). None writes `VF` as a flag. -/

namespace Sys2Proof.Machine

/-- LoadValToReg (spec/43_register_loads.md R210). -/
def execLoadValToReg (x : Reg) (kk : Byte) (s : State) : Result := retire (s.setReg x kk)

/-- LoadRegToReg (spec/43_register_loads.md R211). -/
def execLoadRegToReg (x y : Reg) (s : State) : Result := retire (s.setReg x (s.reg y))

/-- LoadDelayTimerToReg (spec/43_register_loads.md R212). -/
def execLoadDelayTimerToReg (x : Reg) (s : State) : Result := retire (s.setReg x s.dt)

/-- LoadRegToDelayTimer (spec/43_register_loads.md R213). -/
def execLoadRegToDelayTimer (x : Reg) (s : State) : Result := retire (s.setDt (s.reg x))

/-- LoadRegToSoundTimer (spec/43_register_loads.md R214). -/
def execLoadRegToSoundTimer (x : Reg) (s : State) : Result := retire (s.setSt (s.reg x))

/-- LoadKeyToReg (spec/43_register_loads.md R216): a pressed key's number, or the hold `AwaitInput` with none pressed. -/
def execLoadKeyToReg (x : Reg) (s : State) : Result :=
  retireOrAwait ((choosePressed s.keypad s.host.pick).map fun k => s.setReg x (BitVec.ofNat 8 k.val)) s

end Sys2Proof.Machine
end

