-- ==== Sys2Proof/Machine/Skip.lean ====
section
/-! DEFINITION. The six conditional skips (spec/42_skip.md): pc + 4 when the condition holds, pc + 2 when it fails; nothing
else changes. -/

namespace Sys2Proof.Machine

/-- The check of a key number before its use (spec/42_skip.md R194, R195): `KeyIndexFault` above 15. -/
def withKey (k : Byte) (operation : Reg → Result) : Result :=
  match keyNumber k with
  | some key => operation key
  | none => raise (.keyIndexFault k)

/-- SkipIfRegValEqual (spec/42_skip.md R190). -/
def execSkipIfRegValEqual (x : Reg) (kk : Byte) (s : State) : Result := retire (s.skipIf (s.reg x == kk))

/-- SkipIfRegValNotEqual (spec/42_skip.md R191). -/
def execSkipIfRegValNotEqual (x : Reg) (kk : Byte) (s : State) : Result := retire (s.skipIf (s.reg x != kk))

/-- SkipIfRegRegEqual (spec/42_skip.md R192). -/
def execSkipIfRegRegEqual (x y : Reg) (s : State) : Result := retire (s.skipIf (s.reg x == s.reg y))

/-- SkipIfRegRegNotEqual (spec/42_skip.md R193). -/
def execSkipIfRegRegNotEqual (x y : Reg) (s : State) : Result := retire (s.skipIf (s.reg x != s.reg y))

/-- SkipIfKeyPressed (spec/42_skip.md R194). -/
def execSkipIfKeyPressed (x : Reg) (s : State) : Result := withKey (s.reg x) fun k => retire (s.skipIf (s.key k))

/-- SkipIfKeyNotPressed (spec/42_skip.md R195). -/
def execSkipIfKeyNotPressed (x : Reg) (s : State) : Result := withKey (s.reg x) fun k => retire (s.skipIf (!s.key k))

end Sys2Proof.Machine
end

