-- ==== Sys2Proof/Machine/Dispatch.lean ====
section
/-! DEFINITION. One arm per operation of spec/30_encoding.md R107, in the table's order: a direct call of its meaning. -/

namespace Sys2Proof.Machine

/-- `execute(S0, op, rnd)` with the advance of a Regular operation (spec/40_execute_engine.md R144, R145, R148), on the state
`S0` whose keypad snapshot and random byte are latched. -/
def exec (i : Instr) (s : State) : Host.Outcome State Fault Refusal :=
  match i with
  | .clearScreen => Sys2Proof.Machine.execClearScreen s
  | .ret => Sys2Proof.Machine.execReturn s
  | .sysCall nnn => Sys2Proof.Machine.execSysCall nnn s
  | .jump nnn => Sys2Proof.Machine.execJump nnn s
  | .call nnn => Sys2Proof.Machine.execCall nnn s
  | .skipIfRegValEqual x kk => Sys2Proof.Machine.execSkipIfRegValEqual x kk s
  | .skipIfRegValNotEqual x kk => Sys2Proof.Machine.execSkipIfRegValNotEqual x kk s
  | .skipIfRegRegEqual x y => Sys2Proof.Machine.execSkipIfRegRegEqual x y s
  | .loadValToReg x kk => Sys2Proof.Machine.execLoadValToReg x kk s
  | .addValToReg x kk => Sys2Proof.Machine.execAddValToReg x kk s
  | .loadRegToReg x y => Sys2Proof.Machine.execLoadRegToReg x y s
  | .orRegReg x y => Sys2Proof.Machine.execOrRegReg x y s
  | .andRegReg x y => Sys2Proof.Machine.execAndRegReg x y s
  | .xorRegReg x y => Sys2Proof.Machine.execXorRegReg x y s
  | .addRegToReg x y => Sys2Proof.Machine.execAddRegToReg x y s
  | .subRegFromReg x y => Sys2Proof.Machine.execSubRegFromReg x y s
  | .shiftRightReg x y => Sys2Proof.Machine.execShiftRightReg x y s
  | .subnRegFromReg x y => Sys2Proof.Machine.execSubnRegFromReg x y s
  | .shiftLeftReg x y => Sys2Proof.Machine.execShiftLeftReg x y s
  | .skipIfRegRegNotEqual x y => Sys2Proof.Machine.execSkipIfRegRegNotEqual x y s
  | .loadValToI nnn => Sys2Proof.Machine.execLoadValToI nnn s
  | .jumpPlusV0 nnn => Sys2Proof.Machine.execJumpPlusV0 nnn s
  | .randomAndValToReg x kk => Sys2Proof.Machine.execRandomAndValToReg x kk s
  | .drawSprite x y n => Sys2Proof.Machine.execDrawSprite x y n s
  | .skipIfKeyPressed x => Sys2Proof.Machine.execSkipIfKeyPressed x s
  | .skipIfKeyNotPressed x => Sys2Proof.Machine.execSkipIfKeyNotPressed x s
  | .loadDelayTimerToReg x => Sys2Proof.Machine.execLoadDelayTimerToReg x s
  | .loadKeyToReg x => Sys2Proof.Machine.execLoadKeyToReg x s
  | .loadRegToDelayTimer x => Sys2Proof.Machine.execLoadRegToDelayTimer x s
  | .loadRegToSoundTimer x => Sys2Proof.Machine.execLoadRegToSoundTimer x s
  | .addRegToI x => Sys2Proof.Machine.execAddRegToI x s
  | .loadSpriteLocationToI x => Sys2Proof.Machine.execLoadSpriteLocationToI x s
  | .loadRegBcdToMem x => Sys2Proof.Machine.execLoadRegBcdToMem x s
  | .loadRegsToMem x => Sys2Proof.Machine.execLoadRegsToMem x s
  | .loadMemToRegs x => Sys2Proof.Machine.execLoadMemToRegs x s

end Sys2Proof.Machine
end

