-- ==== Sys2Proof/Machine/HostInterface.lean ====
section
/-! DEFINITION. What the host does to the machine and sees of it (spec/60_exceptions.md R320 to R331): the loader, the timer
ticks, the inputs of a step, what follows an unrecognized word, the render sink and the sound. -/

namespace Sys2Proof.Machine

/-! ### Before the first step -/

/-- The program image loader: the image's bytes from 0x200 on, truncated to the memory there is (spec/20_memory.md R84);
nothing is executed. -/
def loadImage (image : List Byte) (s : State) : State :=
  s.setMem (s.mem.writeBytes Config.loadAddress (image.take (Config.memSize - Config.loadAddress)))

/-- The boot sequence up to the first step: reset, then the load (spec/70_reset_and_hazards.md R343). -/
def boot (image : List Byte) : State := loadImage image State.reset

/-! ### Timer ticks -/

/-- One tick of one timer: down by 1, to zero and no further (spec/60_exceptions.md R320). -/
def tickTimer (t : Byte) : Byte := if t = 0 then 0 else t - 1

/-- `n` ticks of one timer. -/
def tickTimerBy : Nat → Byte → Byte
  | 0, t => t
  | n + 1, t => tickTimerBy n (tickTimer t)

/-- One tick: both timers (spec/60_exceptions.md R320). -/
def tick (s : State) : State := { s with dt := tickTimer s.dt, st := tickTimer s.st }

/-- `n` ticks. -/
def ticks (n : Nat) (s : State) : State := { s with dt := tickTimerBy n s.dt, st := tickTimerBy n s.st }

/-! ### The inputs of a step -/

/-- The input of the next step: the first one queued, or the free one (log 2). -/
def nextInput (s : State) : Config.HostInput :=
  match s.host.queued with
  | [] => Config.hostInput s.host.drawn
  | h :: _ => h

/-- `S0`: the ticks that fall before the step (spec/60_exceptions.md R321), then the latch of the keypad snapshot and of the
step's random byte and free choice (spec/40_execute_engine.md R140). DEDUCED (log 5), safe: the tick count is free, so
every interleaving of ticks and steps is allowed. -/
def beginStep (s : State) : State :=
  { ticks (nextInput s).ticks s with
    keypad := (nextInput s).keys
    host := { rnd := (nextInput s).rnd, pick := (nextInput s).pick, queued := s.host.queued.tail, drawn := s.host.drawn + 1 } }

/-- What follows the outcome `Unrecognized(w)` on `S0`: the run ends, or the host writes `pc + 2` and goes on
(spec/60_exceptions.md R313). -/
def afterUnrecognized (policy : Config.HostPolicy) (raw : Word) (s0 : State) : Result :=
  match policy with
  | .halt => raise (.unrecognized raw)
  | .skip => .next s0.advance

/-! ### What the host sees -/

/-- The steps after which the render sink reads the display (spec/60_exceptions.md R327). -/
def refreshesDisplay : Instr → Bool
  | .clearScreen | .drawSprite _ _ _ => true
  | .ret | .sysCall _ | .jump _ | .call _ | .skipIfRegValEqual _ _ | .skipIfRegValNotEqual _ _ | .skipIfRegRegEqual _ _
  | .loadValToReg _ _ | .addValToReg _ _ | .loadRegToReg _ _ | .orRegReg _ _ | .andRegReg _ _ | .xorRegReg _ _
  | .addRegToReg _ _ | .subRegFromReg _ _ | .shiftRightReg _ _ | .subnRegFromReg _ _ | .shiftLeftReg _ _
  | .skipIfRegRegNotEqual _ _ | .loadValToI _ | .jumpPlusV0 _ | .randomAndValToReg _ _ | .skipIfKeyPressed _
  | .skipIfKeyNotPressed _ | .loadDelayTimerToReg _ | .loadKeyToReg _ | .loadRegToDelayTimer _
  | .loadRegToSoundTimer _ | .addRegToI _ | .loadSpriteLocationToI _ | .loadRegBcdToMem _ | .loadRegsToMem _
  | .loadMemToRegs _ => false

/-- What the render sink reads: the display, which it cannot change (spec/60_exceptions.md R327). -/
def renderView (s : State) : Display := s.display

/-- The sound is on while `ST > 0` (spec/60_exceptions.md R322). -/
def soundOn (s : State) : Bool := s.st != 0

end Sys2Proof.Machine
end

