-- ==== Sys2Proof/Machine/Step.lean ====
section
/-! DEFINITION. One step (spec/40_execute_engine.md R148) and the placing of an instruction where the next step fetches. -/

namespace Sys2Proof.Machine

/-- One step: the host's inputs are taken (`beginStep`), the word at the pc is fetched, decoded and executed
(spec/40_execute_engine.md R140 to R148). A fetch out of memory stops with its address (R141); an unrecognized word is left to
the host's policy (R142, spec/60_exceptions.md R313). -/
def step (s : State) : Host.Outcome State Fault Refusal :=
  match fetchWord (beginStep s) with
  | .error a => raise (.addressFault a)
  | .ok w =>
    match decode w.byteHigh w.byteLow with
    | .instr i => exec i (beginStep s)
    | .unrecognized raw => afterUnrecognized (nextInput s).onUnrecognized raw (beginStep s)

/-- The state with the instruction whose bits are `w` (spec/opcode_table.json's numbering) at the pc, high byte first, as the
loader would place it there (log 6); where the pc addresses no whole word there is no place for it. -/
def State.withFetchWord (s : State) (nbits w : Nat) : State :=
  let word : Word := BitVec.ofNat 16 (w % 2 ^ nbits)
  if blockFits s.pc.toNat 2 then s.setMem (s.mem.writeBytes s.pc.toNat [word.byteHigh, word.byteLow]) else s

end Sys2Proof.Machine
end

