-- ==== Sys2Proof/Machine/Report.lean ====
section
/-! DEFINITION. What the host receives from a step: the outcome with its code, and the state (spec/60_exceptions.md R310,
R331; spec/40_execute_engine.md R140, R147). `step` says how the run goes on; this says what was reported. -/

namespace Sys2Proof.Machine

/-- The seven outcomes of a step, with what each records (spec/60_exceptions.md R310). -/
inductive StepOutcome where
  | ok
  | awaitInput
  | unrecognized (raw : Word)
  | stackOverflow
  | stackUnderflow
  | addressFault (a : Nat)
  | keyIndexFault (k : Byte)
  deriving DecidableEq, Repr

/-- The numeric codes, the spec's own (spec/60_exceptions.md R310). -/
def outcomeCode : StepOutcome → Nat
  | .ok => 0
  | .awaitInput => 1
  | .unrecognized _ => 2
  | .stackOverflow => 3
  | .stackUnderflow => 4
  | .addressFault _ => 5
  | .keyIndexFault _ => 6

/-- The outcomes that are final for the run (spec/60_exceptions.md R310, R317). -/
def outcomeFatal : StepOutcome → Bool
  | .ok | .awaitInput | .unrecognized _ => false
  | .stackOverflow | .stackUnderflow | .addressFault _ | .keyIndexFault _ => true

/-- The outcome a fault stands for. -/
def outcomeOfFault : Fault → StepOutcome
  | .stackOverflow => .stackOverflow
  | .stackUnderflow => .stackUnderflow
  | .addressFault a => .addressFault a
  | .keyIndexFault k => .keyIndexFault k
  | .unrecognized raw => .unrecognized raw

/-- Whether an instruction is held on `S0`: LoadKeyToReg with no key pressed (spec/60_exceptions.md R316). -/
def awaitsInput (i : Instr) (s0 : State) : Bool :=
  match i with
  | .loadKeyToReg _ => (choosePressed s0.keypad s0.host.pick).isNone
  | .clearScreen | .ret | .sysCall _ | .jump _ | .call _ | .skipIfRegValEqual _ _ | .skipIfRegValNotEqual _ _
  | .skipIfRegRegEqual _ _ | .loadValToReg _ _ | .addValToReg _ _ | .loadRegToReg _ _ | .orRegReg _ _ | .andRegReg _ _
  | .xorRegReg _ _ | .addRegToReg _ _ | .subRegFromReg _ _ | .shiftRightReg _ _ | .subnRegFromReg _ _
  | .shiftLeftReg _ _ | .skipIfRegRegNotEqual _ _ | .loadValToI _ | .jumpPlusV0 _ | .randomAndValToReg _ _
  | .drawSprite _ _ _ | .skipIfKeyPressed _ | .skipIfKeyNotPressed _ | .loadDelayTimerToReg _
  | .loadRegToDelayTimer _ | .loadRegToSoundTimer _ | .addRegToI _ | .loadSpriteLocationToI _ | .loadRegBcdToMem _
  | .loadRegsToMem _ | .loadMemToRegs _ => false

/-- The pair (outcome, state) of an execution on `S0`: a failing one returns `S0` (spec/40_execute_engine.md R147). None only
for an instruction rejected by name. -/
def reportExec (i : Instr) (s0 : State) : Option (StepOutcome × State) :=
  match exec i s0 with
  | .next t => some (if awaitsInput i s0 then .awaitInput else .ok, t)
  | .fault f => some (outcomeOfFault f, s0)
  | .refused _ => none

/-- `step(S, keys, rnd) -> (outcome, S')` (spec/40_execute_engine.md R140, R148), with the inputs that `beginStep` takes. -/
def stepReport (s : State) : Option (StepOutcome × State) :=
  match fetchWord (beginStep s) with
  | .error a => some (.addressFault a, beginStep s)
  | .ok w =>
    match decode w.byteHigh w.byteLow with
    | .instr i => reportExec i (beginStep s)
    | .unrecognized raw => some (.unrecognized raw, beginStep s)

end Sys2Proof.Machine
end

