-- ==== Sys2Proof/Safety.lean ====
section
/-! DEFINITION. The terms claims use: the invariants of a run, what an instruction may write, and frames. Each is written from
the spec's own lists, not from the meanings. -/

namespace Sys2Proof.Machine

/-- What a step through the reset state's runs keeps (spec/10_state.md R41): the pc is at most 0x10FE, the largest jump
target, and every stack slot holds the address of a word that was fetched (or zero), at most 0xFFE. -/
def PcBounded (s : State) : Prop :=
  s.pc.toNat ≤ 0x10FE ∧ ∀ j : Fin 16, (s.stack[j.val]).toNat ≤ 0xFFE

/-- The registers an instruction may write: its destination, and `VF` for the writers of the flag (spec/10_state.md R33);
`V0..Vx` for LoadMemToRegs (spec/44_index_memory.md R236). -/
def mayWriteReg : Instr → Reg → Bool
  | .loadValToReg x _, r | .addValToReg x _, r | .loadRegToReg x _, r | .orRegReg x _, r | .andRegReg x _, r
  | .xorRegReg x _, r | .randomAndValToReg x _, r | .loadDelayTimerToReg x, r | .loadKeyToReg x, r => r == x
  | .addRegToReg x _, r | .subRegFromReg x _, r | .subnRegFromReg x _, r | .shiftRightReg x _, r
  | .shiftLeftReg x _, r => r == x || r == VF
  | .drawSprite _ _ _, r => r == VF
  | .loadMemToRegs x, r => decide (r ≤ x)
  | .clearScreen, _ | .ret, _ | .sysCall _, _ | .jump _, _ | .call _, _ | .skipIfRegValEqual _ _, _
  | .skipIfRegValNotEqual _ _, _ | .skipIfRegRegEqual _ _, _ | .skipIfRegRegNotEqual _ _, _ | .loadValToI _, _
  | .jumpPlusV0 _, _ | .skipIfKeyPressed _, _ | .skipIfKeyNotPressed _, _ | .loadRegToDelayTimer _, _
  | .loadRegToSoundTimer _, _ | .addRegToI _, _ | .loadSpriteLocationToI _, _ | .loadRegBcdToMem _, _
  | .loadRegsToMem _, _ => false

/-- The frame of an instruction that writes registers only: every register but those listed keeps its value, every byte of
memory reads as before, and nothing else changes but the pc (spec/00_scope.md R16). -/
def OnlyRegs (regs : List Reg) (s t : State) : Prop :=
  (∀ r : Reg, r ∉ regs → t.reg r = s.reg r) ∧ (∀ a, t.mem.read a = s.mem.read a) ∧ t = { s with v := t.v, pc := t.pc }

/-- The frame of an instruction that stores `n` bytes from address `a`: every byte outside them reads as before, and
nothing else changes but the pc (spec/00_scope.md R16). -/
def OnlyBytes (a n : Nat) (s t : State) : Prop :=
  (∀ b, b < a ∨ a + n ≤ b → t.mem.read b = s.mem.read b) ∧ t = { s with mem := t.mem, pc := t.pc }

/-- The frame of an instruction that changes the pc alone: no register, no byte of memory, no other state
(spec/00_scope.md R16). -/
def OnlyPc (s t : State) : Prop := (∀ a, t.mem.read a = s.mem.read a) ∧ t = { s with pc := t.pc }

/-- A byte of a sprite covers the pixel in row `r`, column `c`: some row `k` of the `n` bytes from `I` lies on `r`, and the bit
for the column `c` is set (spec/46_display_system.md R291). -/
def spriteCovers (s : State) (x y : Reg) (n : Nibble) (r : Fin 32) (c : Fin 64) : Prop :=
  ∃ k b : Nat, k < n.toNat ∧ b < 8 ∧ ((s.reg y).toNat + k) % 32 = r.val ∧ ((s.reg x).toNat + b) % 64 = c.val ∧
    (s.mem.read (s.i.toNat + k)).getLsbD (7 - b) = true

/-- The glyph of digit `d` drawn at column `cx`, row `cy` has a set pixel in row `r`, column `c`: pixel `b` from the left of
its row `k` lies there (spec/44_index_memory.md R235). -/
def digitCovers (d : Fin 16) (cx cy : Byte) (r : Fin 32) (c : Fin 64) : Prop :=
  ∃ (k : Fin 5) (b : Fin 4), (cy.toNat + k.val) % 32 = r.val ∧ (cx.toNat + b.val) % 64 = c.val ∧
    ((Config.glyphRows[d.val])[k.val]).getLsbD (3 - b.val) = true

/-- An answer with its next state changed. -/
def mapNext (f : State → State) : Result → Result
  | .next t => .next (f t)
  | .fault r => .fault r
  | .refused r => .refused r

/-- The state with another random byte latched. -/
def State.withRnd (s : State) (b : Byte) : State := { s with host := { s.host with rnd := b } }

/-- The state with other inputs queued for the coming steps. -/
def State.withQueued (s : State) (q : List Config.HostInput) : State := { s with host := { s.host with queued := q } }

end Sys2Proof.Machine
end

