-- ==== Sys2Proof/Certificates/Slice0/Obligations.lean ====
section
/-! DEFINITION. The statements for the provers. Each docstring names the rule of spec/ it formalises. A clause
that gives an instruction's encoding rests on the spec's own opcode table (D26, log 9), and a frame on its rule for state an
entry does not name (D8, log 9): both are the spec's choices, marked so there. -/

open Sys2Proof Sys2Proof.Machine

/-! ### Encoding -/

/-- spec/30_encoding.md R104, R107, R114: an encoded instruction decodes to itself, every operand at every value, as a word
and from its two bytes in memory order. -/
def Obligations.DecodeInvertsEncode : Prop :=
  ∀ i : Instr, i.wellFormed = true →
    decodeWord (encode i) = .instr i ∧ decode (encode i).byteHigh (encode i).byteLow = .instr i

/-- spec/30_encoding.md R108, R110: a word decodes to one instruction only, and that instruction encodes to the word, so no
two words share one. -/
def Obligations.EncodeInvertsDecode : Prop :=
  ∀ (w : Word) (i : Instr), decodeWord w = .instr i → i.wellFormed = true ∧ encode i = w

/-- spec/30_encoding.md R108, R109: the decoder answers the operation of the first row whose mask and match fit the word, or
`Unrecognized` with the whole word; rows 1 and 2 overlap row 3 and no other two rows overlap; 0x00E0 is ClearScreen, 0x00EE
is Return, and every other word 0x0000..0x0FFF is SysCall. -/
def Obligations.DecoderFollowsMatchRule : Prop :=
  (∀ w : Word, match decodeWord w with
    | .instr i => (firstRow w).map OpcodeRow.name = some i.mnemonic
    | .unrecognized raw => firstRow w = none ∧ raw = w) ∧
  opcodeTable.Pairwise (fun r q => (∃ w : Word, r.matchesWord w = true ∧ q.matchesWord w = true) →
    (r.name = "ClearScreen" ∨ r.name = "Return") ∧ q.name = "SysCall") ∧
  decodeWord 0x00E0 = .instr .clearScreen ∧ decodeWord 0x00EE = .instr .ret ∧
  ∀ nnn : Addr12, nnn ≠ 0x0E0 → nnn ≠ 0x0EE → decodeWord (encodeNNN 0x0 nnn) = .instr (.sysCall nnn)

/-- spec/30_encoding.md R111: exactly which words are unrecognized. -/
def Obligations.UnrecognizedWordsAreThese : Prop :=
  ∀ w : Word, decodeWord w = .unrecognized w ↔
    (w.nibble3 = 0x5 ∧ w.nibble0 ≠ 0) ∨
    (w.nibble3 = 0x8 ∧ w.nibble0 ∈ [0x8#4, 0x9#4, 0xA#4, 0xB#4, 0xC#4, 0xD#4, 0xF#4]) ∨
    (w.nibble3 = 0x9 ∧ w.nibble0 ≠ 0) ∨
    (w.nibble3 = 0xE ∧ w.byteLow ∉ [0x9E#8, 0xA1#8]) ∨
    (w.nibble3 = 0xF ∧ w.byteLow ∉ [0x07#8, 0x0A#8, 0x15#8, 0x18#8, 0x1E#8, 0x29#8, 0x33#8, 0x55#8, 0x65#8])

/-- spec/95_test_vectors.md W1, W2, W4, P4, P2, T1, T3, T10: words written out there decode to the operations they are
listed for. -/
def Obligations.SampleWordsDecode : Prop :=
  decode 0x3A 0x5C = .instr (.skipIfRegValEqual 0xA 0x5C) ∧ decode 0x81 0x24 = .instr (.addRegToReg 1 2) ∧
  decode 0x23 0x00 = .instr (.call 0x300) ∧ decode 0xD0 0x12 = .instr (.drawSprite 0 1 2) ∧
  decode 0xF2 0x65 = .instr (.loadMemToRegs 2) ∧ decode 0x00 0xE0 = .instr .clearScreen ∧
  decode 0x0F 0xFF = .instr (.sysCall 0xFFF) ∧ decode 0x90 0x01 = .unrecognized 0x9001

/-! ### Reset and invariants -/

/-- spec/70_reset_and_hazards.md R340: every field after reset, memory byte by byte. -/
def Obligations.ResetStateIsAsSpecified : Prop :=
  (∀ x : Reg, State.reset.reg x = 0) ∧ State.reset.i = 0 ∧ State.reset.pc = 0x200 ∧ State.reset.sp = 0 ∧
  (∀ j : Fin 16, State.reset.stack[j.val] = 0) ∧ State.reset.dt = 0 ∧ State.reset.st = 0 ∧
  (∀ k : Reg, State.reset.key k = false) ∧ (∀ p : Pixel, State.reset.display.pixel p = false) ∧
  (∀ (a : Nat) (h : a < 80), State.reset.mem.read a = font[a]'h) ∧
  (∀ a : Nat, 80 ≤ a → a < 0x1000 → State.reset.mem.read a = 0)

/-- spec/44_index_memory.md R235: after reset the glyph of digit `d` is the 5 bytes from `5 * d` on, each its row's 4 free pixels
in bits 7..4 with bits 3..0 zero, no byte of the font has a low bit, and LoadSpriteLocationToI addresses the glyph of a
digit. The layout of a byte is the spec's own, from general knowledge (G8, log 13). -/
def Obligations.FontHoldsGlyphs : Prop :=
  (∀ (d : Fin 16) (k : Fin 5) (b : Fin 4),
    (State.reset.mem.read (5 * d.val + k.val)).getLsbD (4 + b.val) = ((Config.glyphRows[d.val])[k.val]).getLsbD b.val) ∧
  (∀ (a : Nat) (b : Fin 4), a < 80 → (State.reset.mem.read a).getLsbD b.val = false) ∧
  ∀ (x : Reg) (d : Fin 16) (s : State), (s.reg x).toNat = d.val →
    ∃ t, exec (.loadSpriteLocationToI x) s = .next t ∧ t.i.toNat = 5 * d.val

/-- spec/44_index_memory.md R235: while the font is as reset leaves it, LoadSpriteLocationToI of a digit and then DrawSprite of 5
bytes flips exactly the digit's set pixels, within 4 columns and 5 rows. The layout of a byte is the spec's own (G8,
log 13), as is the bit order (D3, log 9). -/
def Obligations.DigitDrawIsFourByFive : Prop :=
  ∀ (z x y : Reg) (d : Fin 16) (s : State), (s.reg z).toNat = d.val →
    (∀ a < 80, s.mem.read a = State.reset.mem.read a) →
    ∃ t u, exec (.loadSpriteLocationToI z) s = .next t ∧ exec (.drawSprite x y 5) t = .next u ∧
      ∀ (r : Fin 32) (c : Fin 64),
        (digitCovers d (s.reg x) (s.reg y) r c → u.display.pixel (r, c) = !s.display.pixel (r, c)) ∧
        (¬ digitCovers d (s.reg x) (s.reg y) r c → u.display.pixel (r, c) = s.display.pixel (r, c))

/-- The invariants of a run hold after reset (spec/70_reset_and_hazards.md R340; the canonical form of memory is the model's
own, log 8). -/
def Obligations.ResetMeetsInvariants : Prop := State.reset.mem.wf = true ∧ PcBounded State.reset

/-- The model's canonical form of memory (log 8): every step keeps it, so every cell lies below 0x1000
(spec/20_memory.md R70, R75). -/
def Obligations.StepKeepsMemoryCanonical : Prop :=
  ∀ s t : State, s.mem.wf = true → Machine.step s = .next t → t.mem.wf = true

/-- spec/10_state.md R41: the pc never passes 0x10FE and a slot of the call stack never holds more than 0xFFE, so that pc
arithmetic never wraps. It rests on `P_RETURN_LINK = AT_CALL`, the spec's normative value. -/
def Obligations.StepKeepsPcBounded : Prop :=
  ∀ s t : State, PcBounded s → Machine.step s = .next t → PcBounded t

/-! ### The step -/

/-- spec/40_execute_engine.md R148: when the two bytes at the pc decode to an instruction, a step is that instruction's
execution on `S0`, and `S0` is the state with the step's keypad snapshot, the ticked timers and the model's own latches. -/
def Obligations.StepRunsDecodedInstruction : Prop :=
  ∀ (s : State) (i : Instr), s.pc.toNat + 2 ≤ 0x1000 →
    decode (s.mem.read s.pc.toNat) (s.mem.read (s.pc.toNat + 1)) = .instr i →
    Machine.step s = exec i (beginStep s) ∧
    beginStep s = { s with
      dt := (beginStep s).dt, st := (beginStep s).st, keypad := (nextInput s).keys, host := (beginStep s).host } ∧
    (beginStep s).host.rnd = (nextInput s).rnd

/-- spec/20_memory.md R72, spec/40_execute_engine.md R148: a word placed at the pc is what the very next step runs. -/
def Obligations.PlacedWordIsRunNext : Prop :=
  ∀ (s : State) (w : Nat) (i : Instr), s.pc.toNat ≤ 0xFFE → decodeTableWord 16 w = some i →
    Machine.step (s.withFetchWord 16 w) = exec i (beginStep (s.withFetchWord 16 w))

/-- spec/40_execute_engine.md R140, spec/60_exceptions.md R320, R321: a step begins with the host's inputs: the ticks that fall
before it bring the timers down, the keypad snapshot and the random byte are latched; an input that is queued is the one
taken. -/
def Obligations.StepBeginsWithHostInputs : Prop :=
  ∀ (s : State),
    (beginStep s).keypad = (nextInput s).keys ∧ (beginStep s).host.rnd = (nextInput s).rnd ∧
    (beginStep s).dt.toNat = s.dt.toNat - (nextInput s).ticks ∧
    (beginStep s).st.toNat = s.st.toNat - (nextInput s).ticks ∧
    ∀ h q, s.host.queued = h :: q → nextInput s = h ∧ (beginStep s).host.queued = q

/-- spec/20_memory.md R72, R75, spec/40_execute_engine.md R141: the fetch is big-endian at any pc, odd ones too; with its
second byte out of memory it faults with 0x1000, with its first out of memory with the pc. The byte order (D2) and
the fault (D4) are the spec's choices (log 9). -/
def Obligations.FetchIsBigEndianAndBounded : Prop :=
  ∀ s : State,
    (s.pc.toNat ≤ 0xFFE → ∃ w : Word, fetchWord s = .ok w ∧
      w.toNat = (s.mem.read s.pc.toNat).toNat * 256 + (s.mem.read (s.pc.toNat + 1)).toNat) ∧
    (s.pc.toNat = 0xFFF → fetchWord s = .error 0x1000 ∧ Machine.step s = .fault (.addressFault 0x1000)) ∧
    (0x1000 ≤ s.pc.toNat → fetchWord s = .error s.pc.toNat ∧ Machine.step s = .fault (.addressFault s.pc.toNat))

/-- spec/40_execute_engine.md R142, spec/46_display_system.md R294, spec/60_exceptions.md R313: an unrecognized word is
reported with the state unchanged, and again from that state; under HALT the run ends, under SKIP the host goes on at
pc + 2. That the policy is an input of each step is the model's choice (log 3). -/
def Obligations.UnrecognizedIsReportedUnchanged : Prop :=
  ∀ (s : State) (raw : Word), s.pc.toNat + 2 ≤ 0x1000 →
    decode (s.mem.read s.pc.toNat) (s.mem.read (s.pc.toNat + 1)) = .unrecognized raw →
    raw = wordOfBytes (s.mem.read s.pc.toNat) (s.mem.read (s.pc.toNat + 1)) ∧
    stepReport s = some (.unrecognized raw, beginStep s) ∧
    (∀ q, ∃ t, stepReport ((beginStep s).withQueued q) = some (.unrecognized raw, t)) ∧
    ((nextInput s).onUnrecognized = .halt → Machine.step s = .fault (.unrecognized raw)) ∧
    ((nextInput s).onUnrecognized = .skip → Machine.step s = .next { beginStep s with pc := s.pc + 2 })

/-- spec/40_execute_engine.md R147: a step with any outcome but `Ok` returns the state it began with, `S0` (D19, the
spec's choice, log 9). -/
def Obligations.FailingStepReturnsStartState : Prop :=
  ∀ (s t : State) (o : StepOutcome), stepReport s = some (o, t) → o ≠ .ok → t = beginStep s

/-- spec/60_exceptions.md R310, spec/40_execute_engine.md R152: every step reports one of the seven outcomes, no instruction
is refused, and the run goes on exactly after `Ok`, `AwaitInput`, and `Unrecognized` under SKIP. -/
def Obligations.EveryStepReportsAnOutcome : Prop :=
  ∀ s : State, ∃ (o : StepOutcome) (t : State), stepReport s = some (o, t) ∧
    match o with
    | .ok | .awaitInput => Machine.step s = .next t
    | .unrecognized raw => Machine.step s = .fault (.unrecognized raw) ∨ Machine.step s = .next { t with pc := t.pc + 2 }
    | .stackOverflow => Machine.step s = .fault .stackOverflow
    | .stackUnderflow => Machine.step s = .fault .stackUnderflow
    | .addressFault a => Machine.step s = .fault (.addressFault a)
    | .keyIndexFault k => Machine.step s = .fault (.keyIndexFault k)

/-- spec/60_exceptions.md R317: a fatal outcome is final; a step from the returned state reports it again, whatever inputs
the host supplies. -/
def Obligations.FatalOutcomeRepeats : Prop :=
  ∀ (s t : State) (o : StepOutcome), stepReport s = some (o, t) → outcomeFatal o = true →
    ∀ q : List Config.HostInput, ∃ t', stepReport (t.withQueued q) = some (o, t')

/-- spec/60_exceptions.md R311, R312, R314, R315 and the table of R310: which instruction raises which fault, and when. -/
def Obligations.FaultsHaveTheirCauses : Prop :=
  ∀ (i : Instr) (s : State) (f : Fault), exec i s = .fault f →
    (f = .stackOverflow ∧ (∃ nnn, i = .call nnn) ∧ s.sp.val = 16) ∨
    (f = .stackUnderflow ∧ i = .ret ∧ s.sp.val = 0) ∨
    (f = .addressFault (max s.i.toNat 0x1000) ∧
      ((∃ x, i = .loadRegBcdToMem x ∧ 0x1000 ≤ s.i.toNat + 2) ∨
       (∃ x, (i = .loadRegsToMem x ∨ i = .loadMemToRegs x) ∧ 0x1000 ≤ s.i.toNat + x.val) ∨
       (∃ x y n, i = .drawSprite x y n ∧ 0 < n.toNat ∧ 0x1000 ≤ s.i.toNat + n.toNat - 1))) ∨
    (∃ x, f = .keyIndexFault (s.reg x) ∧ (i = .skipIfKeyPressed x ∨ i = .skipIfKeyNotPressed x) ∧ 15 < (s.reg x).toNat)

/-! ### Whole-machine rules -/

/-- spec/40_execute_engine.md R143, R144, R146: an instruction that is not FlowControl, and is not held, ends with the pc
advanced by exactly 2, or by 4 if it is a skip. -/
def Obligations.RegularInstructionsAdvance : Prop :=
  ∀ (i : Instr) (s t : State), exec i s = .next t → i.isFlowControl = false → awaitsInput i s = false →
    t.pc = s.pc + 2 ∨ (i.isSkip = true ∧ t.pc = s.pc + 4)

/-- spec/10_state.md R33 (for `VF`) and R34's converse for every register: only an instruction's own destinations change. -/
def Obligations.OnlyDestinationRegistersChange : Prop :=
  ∀ (i : Instr) (s t : State), exec i s = .next t → ∀ r : Reg, mayWriteReg i r = false → t.reg r = s.reg r

/-- spec/10_state.md R36, R42, R45, R46, R47, R49, R50, spec/20_memory.md R78: who writes each piece of state that is not a
general register or the pc. -/
def Obligations.OnlyTheseWriteSpecialState : Prop :=
  ∀ (i : Instr) (s t : State), exec i s = .next t →
    (t.i ≠ s.i → (∃ a, i = .loadValToI a) ∨ (∃ x, i = .loadSpriteLocationToI x) ∨ ∃ x, i = .addRegToI x) ∧
    (t.stack ≠ s.stack → ∃ a, i = .call a) ∧
    (t.sp ≠ s.sp → (∃ a, i = .call a) ∨ i = .ret) ∧
    (t.dt ≠ s.dt → ∃ x, i = .loadRegToDelayTimer x) ∧
    (t.st ≠ s.st → ∃ x, i = .loadRegToSoundTimer x) ∧
    (t.display ≠ s.display → i = .clearScreen ∨ ∃ x y n, i = .drawSprite x y n) ∧
    (t.mem ≠ s.mem → (∃ x, i = .loadRegBcdToMem x) ∨ ∃ x, i = .loadRegsToMem x) ∧
    t.keypad = s.keypad ∧ t.host = s.host

/-- spec/40_execute_engine.md R140, spec/10_state.md R47: the random byte is read by RandomAndValToReg alone, and no
instruction reads ST. -/
def Obligations.RandomByteAndSoundTimerUnread : Prop :=
  (∀ (i : Instr) (s : State) (b : Byte), (∀ x kk, i ≠ .randomAndValToReg x kk) →
    exec i (s.withRnd b) = mapNext (fun t => t.withRnd b) (exec i s)) ∧
  (∀ (i : Instr) (s : State) (b : Byte), (∀ x, i ≠ .loadRegToSoundTimer x) →
    exec i (s.setSt b) = mapNext (fun t => t.setSt b) (exec i s))

/-- spec/10_state.md R46, R49, R50: DT is read by LoadDelayTimerToReg alone, the keypad by the key skips and LoadKeyToReg, the
display by DrawSprite. -/
def Obligations.DelayTimerKeypadDisplayReaders : Prop :=
  (∀ (i : Instr) (s : State) (b : Byte), (∀ x, i ≠ .loadDelayTimerToReg x) → (∀ x, i ≠ .loadRegToDelayTimer x) →
    exec i (s.setDt b) = mapNext (fun t => t.setDt b) (exec i s)) ∧
  (∀ (i : Instr) (s : State) (ks : Vector Bool 16), (∀ x, i ≠ .skipIfKeyPressed x) → (∀ x, i ≠ .skipIfKeyNotPressed x) →
    (∀ x, i ≠ .loadKeyToReg x) → exec i { s with keypad := ks } = mapNext (fun t => { t with keypad := ks }) (exec i s)) ∧
  (∀ (i : Instr) (s : State) (d : Display), (∀ x y n, i ≠ .drawSprite x y n) → i ≠ .clearScreen →
    exec i (s.setDisplay d) = mapNext (fun t => t.setDisplay d) (exec i s))

/-! ### Memory, loader, timers -/

/-- spec/20_memory.md R84: the loader writes the image from 0x200, truncated to 3584 bytes, and nothing else. -/
def Obligations.LoadImageWritesTruncatedImage : Prop :=
  ∀ (image : List Byte) (s : State),
    loadImage image s = { s with mem := (loadImage image s).mem } ∧
    ∀ a : Nat, (loadImage image s).mem.read a =
      if 0x200 ≤ a ∧ a < 0x200 + min image.length 3584 then image.getD (a - 0x200) 0 else s.mem.read a

/-- spec/60_exceptions.md R320: ticks bring both timers down to zero and no further, and touch nothing else. That
one tick is both timers is the spec's choice D14 (log 5). -/
def Obligations.TicksSaturateAtZero : Prop :=
  ∀ (n : Nat) (s : State),
    (ticks n s).dt.toNat = s.dt.toNat - n ∧ (ticks n s).st.toNat = s.st.toNat - n ∧
    ticks n s = { s with dt := (ticks n s).dt, st := (ticks n s).st } ∧ ticks (n + 1) s = ticks n (tick s)

/-- spec/20_memory.md R82: a word stored by LoadRegsToMem is what a later fetch at its address gives. -/
def Obligations.StoredCodeIsFetched : Prop :=
  ∀ (x : Reg) (s t : State), exec (.loadRegsToMem x) s = .next t →
    ∀ (k : Reg) (h : k.val + 1 < 16), k.val + 1 ≤ x.val →
      fetchWord (t.setPc (s.i + BitVec.ofNat 16 k.val)) = .ok (wordOfBytes (s.reg k) (s.reg ⟨k.val + 1, h⟩))

/-! ### Flow control -/

/-- spec/41_flow_control.md R170, R171: the jumps' encodings, targets and frame; from a target of 0xFFF or more the next step
faults. That the sum never wraps is the inference R171 marks [derived]; the fault is the spec's choice D4 (log 9). -/
def Obligations.JumpsSetThePc : Prop :=
  ∀ (nnn : Addr12) (s : State),
    decodeWord (encodeNNN 0x1 nnn) = .instr (.jump nnn) ∧ decodeWord (encodeNNN 0xB nnn) = .instr (.jumpPlusV0 nnn) ∧
    (∃ t, exec (.jump nnn) s = .next t ∧ t.pc.toNat = nnn.toNat ∧ OnlyPc s t ∧
      (0xFFF ≤ t.pc.toNat → ∃ a, Machine.step t = .fault (.addressFault a))) ∧
    (∃ t, exec (.jumpPlusV0 nnn) s = .next t ∧ t.pc.toNat = nnn.toNat + (s.reg 0).toNat ∧ OnlyPc s t ∧
      (0xFFF ≤ t.pc.toNat → ∃ a, Machine.step t = .fault (.addressFault a)))

/-- spec/41_flow_control.md R172: Call pushes the link and jumps, under the normative AT_CALL and under AFTER_CALL; with 16
entries it overflows under both. AT_CALL is the spec's choice D20 (log 4). -/
def Obligations.CallPushesLink : Prop :=
  ∀ (nnn : Addr12) (s : State),
    decodeWord (encodeNNN 0x2 nnn) = .instr (.call nnn) ∧
    (∀ h : s.sp.val < 16, ∃ t, exec (.call nnn) s = .next t ∧ t.pc = nnn.setWidth 16 ∧ t.sp.val = s.sp.val + 1 ∧
      t.stack[s.sp.val] = s.pc ∧ (∀ j : Fin 16, j.val ≠ s.sp.val → t.stack[j.val] = s.stack[j.val]) ∧
      (∀ a, t.mem.read a = s.mem.read a) ∧ t = { s with pc := t.pc, sp := t.sp, stack := t.stack }) ∧
    (∀ h : s.sp.val < 16, ∃ t, callWith .afterCall nnn s = .next t ∧ t.pc = nnn.setWidth 16 ∧
      t.sp.val = s.sp.val + 1 ∧ t.stack[s.sp.val] = s.pc + 2 ∧
      (∀ j : Fin 16, j.val ≠ s.sp.val → t.stack[j.val] = s.stack[j.val]) ∧
      t = { s with pc := t.pc, sp := t.sp, stack := t.stack }) ∧
    (s.sp.val = 16 → exec (.call nnn) s = .fault .stackOverflow ∧ callWith .afterCall nnn s = .fault .stackOverflow)

/-- spec/41_flow_control.md R173: Return pops into the pc and the slot keeps its value; with no entry it underflows. -/
def Obligations.ReturnPopsThePc : Prop :=
  ∀ s : State,
    decodeWord 0x00EE = .instr .ret ∧
    (∀ h : 0 < s.sp.val, ∃ t, exec .ret s = .next t ∧ t.sp.val = s.sp.val - 1 ∧
      t.pc = s.stack[s.sp.val - 1]'(by have := s.sp.isLt; omega) ∧ (∀ a, t.mem.read a = s.mem.read a) ∧
      t = { s with pc := t.pc, sp := t.sp }) ∧
    (s.sp.val = 0 → exec .ret s = .fault .stackUnderflow)

/-- spec/41_flow_control.md R174: Call then Return restores pc and SP under AT_CALL; under AFTER_CALL the pc after the pair is
the Call's address plus 2 (log 4). -/
def Obligations.CallThenReturnRestores : Prop :=
  ∀ (nnn : Addr12) (s : State), s.sp.val < 16 →
    (∃ t u, exec (.call nnn) s = .next t ∧ exec .ret t = .next u ∧ u.pc = s.pc ∧ u.sp = s.sp) ∧
    (∃ t u, callWith .afterCall nnn s = .next t ∧ exec .ret t = .next u ∧ u.pc = s.pc + 2 ∧ u.sp = s.sp)

/-! ### Skips -/

/-- spec/42_skip.md R190 to R193: the four compare-and-skip operations. -/
def Obligations.CompareSkips : Prop :=
  ∀ (x y : Reg) (kk : Byte) (s : State),
    decodeWord (encodeXKK 0x3 x kk) = .instr (.skipIfRegValEqual x kk) ∧
    decodeWord (encodeXKK 0x4 x kk) = .instr (.skipIfRegValNotEqual x kk) ∧
    decodeWord (encodeXYN 0x5 x y 0x0) = .instr (.skipIfRegRegEqual x y) ∧
    decodeWord (encodeXYN 0x9 x y 0x0) = .instr (.skipIfRegRegNotEqual x y) ∧
    (∃ t, exec (.skipIfRegValEqual x kk) s = .next t ∧ OnlyPc s t ∧
      t.pc = if s.reg x = kk then s.pc + 4 else s.pc + 2) ∧
    (∃ t, exec (.skipIfRegValNotEqual x kk) s = .next t ∧ OnlyPc s t ∧
      t.pc = if s.reg x = kk then s.pc + 2 else s.pc + 4) ∧
    (∃ t, exec (.skipIfRegRegEqual x y) s = .next t ∧ OnlyPc s t ∧
      t.pc = if s.reg x = s.reg y then s.pc + 4 else s.pc + 2) ∧
    (∃ t, exec (.skipIfRegRegNotEqual x y) s = .next t ∧ OnlyPc s t ∧
      t.pc = if s.reg x = s.reg y then s.pc + 2 else s.pc + 4)

/-- spec/42_skip.md R194, R195: the key skips test the latched snapshot, and a key number above 15 faults (D5, the
spec's choice, log 9). -/
def Obligations.KeySkips : Prop :=
  ∀ (x : Reg) (s : State),
    decodeWord (encodeXKK 0xE x 0x9E) = .instr (.skipIfKeyPressed x) ∧
    decodeWord (encodeXKK 0xE x 0xA1) = .instr (.skipIfKeyNotPressed x) ∧
    (∀ h : (s.reg x).toNat < 16,
      (∃ t, exec (.skipIfKeyPressed x) s = .next t ∧ OnlyPc s t ∧
        t.pc = if s.keypad[(s.reg x).toNat] = true then s.pc + 4 else s.pc + 2) ∧
      (∃ t, exec (.skipIfKeyNotPressed x) s = .next t ∧ OnlyPc s t ∧
        t.pc = if s.keypad[(s.reg x).toNat] = true then s.pc + 2 else s.pc + 4)) ∧
    (15 < (s.reg x).toNat →
      exec (.skipIfKeyPressed x) s = .fault (.keyIndexFault (s.reg x)) ∧
      exec (.skipIfKeyNotPressed x) s = .fault (.keyIndexFault (s.reg x)))

/-! ### Register loads, timers, key wait -/

/-- spec/43_register_loads.md R210, R211: direct assignment. -/
def Obligations.RegisterLoads : Prop :=
  ∀ (x y : Reg) (kk : Byte) (s : State),
    decodeWord (encodeXKK 0x6 x kk) = .instr (.loadValToReg x kk) ∧
    decodeWord (encodeXYN 0x8 x y 0x0) = .instr (.loadRegToReg x y) ∧
    (∃ t, exec (.loadValToReg x kk) s = .next t ∧ t.reg x = kk ∧ t.pc = s.pc + 2 ∧ OnlyRegs [x] s t) ∧
    (∃ t, exec (.loadRegToReg x y) s = .next t ∧ t.reg x = s.reg y ∧ t.pc = s.pc + 2 ∧ OnlyRegs [x] s t)

/-- spec/43_register_loads.md R212, R213, R214: the copies between a register and a timer. -/
def Obligations.TimerTransfers : Prop :=
  ∀ (x : Reg) (s : State),
    decodeWord (encodeXKK 0xF x 0x07) = .instr (.loadDelayTimerToReg x) ∧
    decodeWord (encodeXKK 0xF x 0x15) = .instr (.loadRegToDelayTimer x) ∧
    decodeWord (encodeXKK 0xF x 0x18) = .instr (.loadRegToSoundTimer x) ∧
    (∃ t, exec (.loadDelayTimerToReg x) s = .next t ∧ t.reg x = s.dt ∧ t.pc = s.pc + 2 ∧ OnlyRegs [x] s t) ∧
    (∃ t, exec (.loadRegToDelayTimer x) s = .next t ∧ t.dt = s.reg x ∧ t.pc = s.pc + 2 ∧
      (∀ a, t.mem.read a = s.mem.read a) ∧ t = { s with dt := t.dt, pc := t.pc }) ∧
    (∃ t, exec (.loadRegToSoundTimer x) s = .next t ∧ t.st = s.reg x ∧ t.pc = s.pc + 2 ∧
      (∀ a, t.mem.read a = s.mem.read a) ∧ t = { s with st := t.st, pc := t.pc })

/-- spec/43_register_loads.md R216: with no key pressed the step is held on the unchanged state; with some pressed, `V[x]`
receives the number of one of them, and each of them can be the one. That a hold is a next state is the model's reading
(log 12), that the choice is an input of the step the model's form (log 2). -/
def Obligations.KeyWaitTakesAPressedKey : Prop :=
  ∀ (x : Reg) (s : State),
    decodeWord (encodeXKK 0xF x 0x0A) = .instr (.loadKeyToReg x) ∧
    ((∀ k : Reg, s.key k = false) → exec (.loadKeyToReg x) s = .next s ∧
      reportExec (.loadKeyToReg x) s = some (.awaitInput, s)) ∧
    ((∃ k : Reg, s.key k = true) → ∃ t, exec (.loadKeyToReg x) s = .next t ∧
      reportExec (.loadKeyToReg x) s = some (.ok, t) ∧ t.pc = s.pc + 2 ∧ OnlyRegs [x] s t ∧
      ∃ k : Reg, s.key k = true ∧ (t.reg x).toNat = k.val) ∧
    (∀ k : Reg, s.key k = true → s.host.pick = k →
      ∃ t, exec (.loadKeyToReg x) s = .next t ∧ (t.reg x).toNat = k.val)

/-! ### Index register and memory -/

/-- spec/44_index_memory.md R230, R231, R237: the writers of `I`; no flag is written. -/
def Obligations.IndexRegisterWrites : Prop :=
  ∀ (x : Reg) (nnn : Addr12) (s : State),
    decodeWord (encodeNNN 0xA nnn) = .instr (.loadValToI nnn) ∧
    decodeWord (encodeXKK 0xF x 0x29) = .instr (.loadSpriteLocationToI x) ∧
    decodeWord (encodeXKK 0xF x 0x1E) = .instr (.addRegToI x) ∧
    (∃ t, exec (.loadValToI nnn) s = .next t ∧ t.i.toNat = nnn.toNat ∧ t.pc = s.pc + 2 ∧
      (∀ a, t.mem.read a = s.mem.read a) ∧ t = { s with i := t.i, pc := t.pc }) ∧
    (∃ t, exec (.loadSpriteLocationToI x) s = .next t ∧ t.i.toNat = 5 * (s.reg x).toNat ∧ t.pc = s.pc + 2 ∧
      (∀ a, t.mem.read a = s.mem.read a) ∧ t = { s with i := t.i, pc := t.pc }) ∧
    (∃ t, exec (.addRegToI x) s = .next t ∧ t.i.toNat = (s.i.toNat + (s.reg x).toNat) % 65536 ∧ t.pc = s.pc + 2 ∧
      (∀ a, t.mem.read a = s.mem.read a) ∧ t = { s with i := t.i, pc := t.pc })

/-- spec/44_index_memory.md R232: the three decimal digits, hundreds at the lowest address; the fault where one of the
three addresses is out of memory (D4), before any write (D19), is the spec's choice (log 9). -/
def Obligations.BcdStoresThreeDigits : Prop :=
  ∀ (x : Reg) (s : State),
    decodeWord (encodeXKK 0xF x 0x33) = .instr (.loadRegBcdToMem x) ∧
    (s.i.toNat + 2 < 0x1000 → ∃ t, exec (.loadRegBcdToMem x) s = .next t ∧
      (t.mem.read s.i.toNat).toNat = (s.reg x).toNat / 100 ∧
      (t.mem.read (s.i.toNat + 1)).toNat = (s.reg x).toNat / 10 % 10 ∧
      (t.mem.read (s.i.toNat + 2)).toNat = (s.reg x).toNat % 10 ∧
      t.pc = s.pc + 2 ∧ OnlyBytes s.i.toNat 3 s t) ∧
    (0x1000 ≤ s.i.toNat + 2 → exec (.loadRegBcdToMem x) s = .fault (.addressFault (max s.i.toNat 0x1000)))

/-- spec/44_index_memory.md R234: `V0..Vx` to memory from `I`, `I` unchanged; the fault if the last byte is out of
memory (D4), before any write (D19), is the spec's choice (log 9). -/
def Obligations.BlockStoreCopiesRegisters : Prop :=
  ∀ (x : Reg) (s : State),
    decodeWord (encodeXKK 0xF x 0x55) = .instr (.loadRegsToMem x) ∧
    (s.i.toNat + x.val < 0x1000 → ∃ t, exec (.loadRegsToMem x) s = .next t ∧
      (∀ k : Reg, k ≤ x → t.mem.read (s.i.toNat + k.val) = s.reg k) ∧
      t.pc = s.pc + 2 ∧ OnlyBytes s.i.toNat (x.val + 1) s t) ∧
    (0x1000 ≤ s.i.toNat + x.val → exec (.loadRegsToMem x) s = .fault (.addressFault (max s.i.toNat 0x1000)))

/-- spec/44_index_memory.md R236: `V0..Vx` from memory at `I`, `I` and the registers above `x` unchanged; the fault if the
last byte is out of memory (D4), before any read (D19), is the spec's choice (log 9). -/
def Obligations.BlockLoadFillsRegisters : Prop :=
  ∀ (x : Reg) (s : State),
    decodeWord (encodeXKK 0xF x 0x65) = .instr (.loadMemToRegs x) ∧
    (s.i.toNat + x.val < 0x1000 → ∃ t, exec (.loadMemToRegs x) s = .next t ∧
      (∀ k : Reg, k ≤ x → t.reg k = s.mem.read (s.i.toNat + k.val)) ∧ (∀ k : Reg, x < k → t.reg k = s.reg k) ∧
      t.pc = s.pc + 2 ∧ (∀ a, t.mem.read a = s.mem.read a) ∧ t = { s with v := t.v, pc := t.pc }) ∧
    (0x1000 ≤ s.i.toNat + x.val → exec (.loadMemToRegs x) s = .fault (.addressFault (max s.i.toNat 0x1000)))

/-- spec/44_index_memory.md R234, R236: a block stored and loaded back restores the registers, whatever they were changed to in
between. -/
def Obligations.BlockStoreThenLoadRestores : Prop :=
  ∀ (x : Reg) (s : State) (v : Vector Byte 16), s.i.toNat + x.val < 0x1000 →
    ∃ t u, exec (.loadRegsToMem x) s = .next t ∧ exec (.loadMemToRegs x) { t with v := v } = .next u ∧
      ∀ k : Reg, k ≤ x → u.reg k = s.reg k

/-! ### ALU -/

/-- spec/45_alu.md R261, R262, R263: bitwise, no flag. -/
def Obligations.BitwiseOperations : Prop :=
  ∀ (x y : Reg) (s : State),
    decodeWord (encodeXYN 0x8 x y 0x1) = .instr (.orRegReg x y) ∧
    decodeWord (encodeXYN 0x8 x y 0x2) = .instr (.andRegReg x y) ∧
    decodeWord (encodeXYN 0x8 x y 0x3) = .instr (.xorRegReg x y) ∧
    (∃ t, exec (.orRegReg x y) s = .next t ∧ t.reg x = s.reg x ||| s.reg y ∧ t.pc = s.pc + 2 ∧ OnlyRegs [x] s t) ∧
    (∃ t, exec (.andRegReg x y) s = .next t ∧ t.reg x = s.reg x &&& s.reg y ∧ t.pc = s.pc + 2 ∧ OnlyRegs [x] s t) ∧
    (∃ t, exec (.xorRegReg x y) s = .next t ∧ t.reg x = s.reg x ^^^ s.reg y ∧ t.pc = s.pc + 2 ∧ OnlyRegs [x] s t)

/-- spec/45_alu.md R266, R271: the sum modulo 256, then the carry in `VF`, which wins where `x` is 15 (D7, the
spec's choice, log 9). -/
def Obligations.AddSetsCarry : Prop :=
  ∀ (x y : Reg) (s : State),
    decodeWord (encodeXYN 0x8 x y 0x4) = .instr (.addRegToReg x y) ∧
    ∃ t, exec (.addRegToReg x y) s = .next t ∧
      (x ≠ VF → (t.reg x).toNat = ((s.reg x).toNat + (s.reg y).toNat) % 256) ∧
      t.reg VF = (if 255 < (s.reg x).toNat + (s.reg y).toNat then 1 else 0) ∧
      t.pc = s.pc + 2 ∧ OnlyRegs [x, VF] s t

/-- spec/45_alu.md R267, R268, R271: the differences modulo 256, then not-borrow in `VF`, which wins where `x` is
15 (D7, the spec's choice, log 9). -/
def Obligations.SubtractSetsNotBorrow : Prop :=
  ∀ (x y : Reg) (s : State),
    decodeWord (encodeXYN 0x8 x y 0x5) = .instr (.subRegFromReg x y) ∧
    decodeWord (encodeXYN 0x8 x y 0x7) = .instr (.subnRegFromReg x y) ∧
    (∃ t, exec (.subRegFromReg x y) s = .next t ∧
      (x ≠ VF → (t.reg x).toNat = ((s.reg x).toNat + 256 - (s.reg y).toNat) % 256) ∧
      t.reg VF = (if (s.reg y).toNat ≤ (s.reg x).toNat then 1 else 0) ∧
      t.pc = s.pc + 2 ∧ OnlyRegs [x, VF] s t) ∧
    (∃ t, exec (.subnRegFromReg x y) s = .next t ∧
      (x ≠ VF → (t.reg x).toNat = ((s.reg y).toNat + 256 - (s.reg x).toNat) % 256) ∧
      t.reg VF = (if (s.reg x).toNat ≤ (s.reg y).toNat then 1 else 0) ∧
      t.pc = s.pc + 2 ∧ OnlyRegs [x, VF] s t)

/-- spec/45_alu.md R269, R270, R271: shifts of `V[x]` in place, `y` ignored, then the bit shifted out in `VF`, which wins where
`x` is 15. In place (D9) and the flag after the result (D7) are the spec's choices (log 9). -/
def Obligations.ShiftsSetBitShiftedOut : Prop :=
  ∀ (x y : Reg) (s : State),
    decodeWord (encodeXYN 0x8 x y 0x6) = .instr (.shiftRightReg x y) ∧
    decodeWord (encodeXYN 0x8 x y 0xE) = .instr (.shiftLeftReg x y) ∧
    (∃ t, exec (.shiftRightReg x y) s = .next t ∧
      (x ≠ VF → (t.reg x).toNat = (s.reg x).toNat / 2) ∧ (t.reg VF).toNat = (s.reg x).toNat % 2 ∧
      t.pc = s.pc + 2 ∧ OnlyRegs [x, VF] s t) ∧
    (∃ t, exec (.shiftLeftReg x y) s = .next t ∧
      (x ≠ VF → (t.reg x).toNat = (s.reg x).toNat * 2 % 256) ∧ (t.reg VF).toNat = (s.reg x).toNat / 128 ∧
      t.pc = s.pc + 2 ∧ OnlyRegs [x, VF] s t) ∧
    ∀ y', exec (.shiftRightReg x y') s = exec (.shiftRightReg x y) s ∧
      exec (.shiftLeftReg x y') s = exec (.shiftLeftReg x y) s

/-- spec/45_alu.md R264, R265: the immediate add with no flag, and the step's random byte masked, whatever the byte is
(D25, the spec's choice). The byte is read from the model's own field `host.rnd` (log 2, DESIGN CHOICE). -/
def Obligations.ImmediateAddAndRandom : Prop :=
  ∀ (x : Reg) (kk : Byte) (s : State),
    decodeWord (encodeXKK 0x7 x kk) = .instr (.addValToReg x kk) ∧
    decodeWord (encodeXKK 0xC x kk) = .instr (.randomAndValToReg x kk) ∧
    (∃ t, exec (.addValToReg x kk) s = .next t ∧ (t.reg x).toNat = ((s.reg x).toNat + kk.toNat) % 256 ∧
      t.pc = s.pc + 2 ∧ OnlyRegs [x] s t) ∧
    (∃ t, exec (.randomAndValToReg x kk) s = .next t ∧ t.reg x = s.host.rnd &&& kk ∧
      t.pc = s.pc + 2 ∧ OnlyRegs [x] s t)

/-! ### Display and system -/

/-- spec/46_display_system.md R290, R293: ClearScreen darkens every pixel and no more; SysCall only advances the pc. -/
def Obligations.ClearScreenAndSysCall : Prop :=
  ∀ (nnn : Addr12) (s : State),
    decodeWord 0x00E0 = .instr .clearScreen ∧
    (nnn ≠ 0x0E0 → nnn ≠ 0x0EE → decodeWord (encodeNNN 0x0 nnn) = .instr (.sysCall nnn)) ∧
    (∃ t, exec .clearScreen s = .next t ∧ (∀ p : Pixel, t.display.pixel p = false) ∧ t.pc = s.pc + 2 ∧
      (∀ a, t.mem.read a = s.mem.read a) ∧ t = { s with display := t.display, pc := t.pc }) ∧
    (∃ t, exec (.sysCall nnn) s = .next t ∧ t.pc = s.pc + 2 ∧ OnlyPc s t)

/-- spec/46_display_system.md R291, R292: a draw flips exactly the pixels the sprite covers, wrapping, and `VF` says whether a
covered pixel was lit; with no byte nothing is drawn and `VF` is 0 (D13); a byte out of memory faults (D4). The bit
order (D3) and these are the spec's choices (log 9). -/
def Obligations.DrawSpriteXorsCoveredPixels : Prop :=
  ∀ (x y : Reg) (n : Nibble) (s : State),
    decodeWord (encodeXYN 0xD x y n) = .instr (.drawSprite x y n) ∧
    (n.toNat = 0 ∨ s.i.toNat + n.toNat ≤ 0x1000 → ∃ t, exec (.drawSprite x y n) s = .next t ∧
      (∀ (r : Fin 32) (c : Fin 64), spriteCovers s x y n r c → t.display.pixel (r, c) = !s.display.pixel (r, c)) ∧
      (∀ (r : Fin 32) (c : Fin 64), ¬ spriteCovers s x y n r c → t.display.pixel (r, c) = s.display.pixel (r, c)) ∧
      ((∃ (r : Fin 32) (c : Fin 64), spriteCovers s x y n r c ∧ s.display.pixel (r, c) = true) → t.reg VF = 1) ∧
      ((∀ (r : Fin 32) (c : Fin 64), spriteCovers s x y n r c → s.display.pixel (r, c) = false) → t.reg VF = 0) ∧
      t.pc = s.pc + 2 ∧ (∀ r : Reg, r ≠ VF → t.reg r = s.reg r) ∧ (∀ a, t.mem.read a = s.mem.read a) ∧
      t = { s with v := t.v, display := t.display, pc := t.pc }) ∧
    (0 < n.toNat → 0x1000 < s.i.toNat + n.toNat →
      exec (.drawSprite x y n) s = .fault (.addressFault (max s.i.toNat 0x1000)))

/-- spec/95_test_vectors.md W5 and spec/46_display_system.md R292: the same sprite drawn twice at the same place restores any
display; on an all-clear display the second draw reports a collision exactly when some bit of the sprite is set. `VF` is
neither coordinate, since a draw changes it. R292's remark on the second draw is read so (log 10). -/
def Obligations.DrawTwiceRestoresDisplay : Prop :=
  ∀ (x y : Reg) (n : Nibble) (s : State), x ≠ VF → y ≠ VF → n.toNat = 0 ∨ s.i.toNat + n.toNat ≤ 0x1000 →
    ∃ t u, exec (.drawSprite x y n) s = .next t ∧ exec (.drawSprite x y n) t = .next u ∧ u.display = s.display ∧
      (s.display = Display.clear → t.reg VF = 0 ∧
        u.reg VF = (if ∃ k < n.toNat, s.mem.read (s.i.toNat + k) ≠ 0 then 1 else 0))
end

