-- ==== Sys2Proof/Laws/Decode.lean ====
section
/-! SUPPORT. The nibbles and bytes of a word and of the encoder's formats. -/

namespace Sys2Proof

/-- A word's number from its nibbles. -/
theorem Word.toNat_eq (w : Word) : w.toNat =
    w.nibble3.toNat * 4096 + w.nibble2.toNat * 256 + w.nibble1.toNat * 16 + w.nibble0.toNat := by
  have := w.isLt
  simp only [Word.nibble3, Word.nibble2, Word.nibble1, Word.nibble0, BitVec.extractLsb'_toNat, Nat.shiftRight_eq_div_pow]
  omega

/-- The number of a word built from four nibbles. -/
theorem toNat_append4 (a b c d : Nibble) : (a ++ b ++ c ++ d : BitVec (4 + 4 + 4 + 4)).toNat =
    a.toNat * 4096 + b.toNat * 256 + c.toNat * 16 + d.toNat := by
  have := a.isLt; have := b.isLt; have := c.isLt; have := d.isLt
  rw [BitVec.toNat_append, BitVec.toNat_append, BitVec.toNat_append,
    ← Nat.shiftLeft_add_eq_or_of_lt b.isLt, ← Nat.shiftLeft_add_eq_or_of_lt c.isLt, ← Nat.shiftLeft_add_eq_or_of_lt d.isLt]
  simp only [Nat.shiftLeft_eq]; omega

/-- A word is its four nibbles. -/
theorem Word.eq_nibbles (w : Word) : w = w.nibble3 ++ w.nibble2 ++ w.nibble1 ++ w.nibble0 := by
  apply BitVec.eq_of_toNat_eq
  rw [Word.toNat_eq w]; exact (toNat_append4 _ _ _ _).symm

/-- A word is its two bytes. -/
theorem Word.eq_bytes (w : Word) : wordOfBytes w.byteHigh w.byteLow = w := by
  apply BitVec.eq_of_toNat_eq
  have := w.isLt
  rw [wordOfBytes, BitVec.toNat_append, ← Nat.shiftLeft_add_eq_or_of_lt (Word.byteLow w).isLt]
  simp only [Word.byteHigh, Word.byteLow, BitVec.extractLsb'_toNat, Nat.shiftRight_eq_div_pow, Nat.shiftLeft_eq]
  omega

/-- The nibbles of a word built from four nibbles. -/
theorem nibbles_append4 (a b c d : Nibble) :
    Word.nibble3 (a ++ b ++ c ++ d) = a ∧ Word.nibble2 (a ++ b ++ c ++ d) = b ∧
    Word.nibble1 (a ++ b ++ c ++ d) = c ∧ Word.nibble0 (a ++ b ++ c ++ d) = d := by
  have := a.isLt; have := b.isLt; have := c.isLt; have := d.isLt
  refine ⟨?_, ?_, ?_, ?_⟩ <;> apply BitVec.eq_of_toNat_eq <;>
    simp only [Word.nibble3, Word.nibble2, Word.nibble1, Word.nibble0, BitVec.extractLsb'_toNat, toNat_append4,
      Nat.shiftRight_eq_div_pow] <;> omega

/-- Decoding four nibbles put together. -/
theorem decodeWord_append4 (a b c d : Nibble) : decodeWord (a ++ b ++ c ++ d) =
    match decodeNibbles a b c d with
    | some i => .instr i
    | none => .unrecognized (a ++ b ++ c ++ d) := by
  obtain ⟨h3, h2, h1, h0⟩ := nibbles_append4 a b c d
  simp only [decodeWord, h3, h2, h1, h0] <;> rfl

/-- A byte is its two nibbles. -/
theorem byte_eq_nibbles (k : Byte) : k.extractLsb' 4 4 ++ k.extractLsb' 0 4 = k := by
  apply BitVec.eq_of_toNat_eq
  have := k.isLt
  rw [BitVec.toNat_append, ← Nat.shiftLeft_add_eq_or_of_lt (BitVec.isLt _)]
  simp only [BitVec.extractLsb'_toNat, Nat.shiftRight_eq_div_pow, Nat.shiftLeft_eq]
  omega

/-- An address field is its three nibbles. -/
theorem addr_eq_nibbles (k : Addr12) : k.extractLsb' 8 4 ++ k.extractLsb' 4 4 ++ k.extractLsb' 0 4 = k := by
  apply BitVec.eq_of_toNat_eq
  have := k.isLt
  rw [BitVec.toNat_append, BitVec.toNat_append, ← Nat.shiftLeft_add_eq_or_of_lt (BitVec.isLt _),
    ← Nat.shiftLeft_add_eq_or_of_lt (BitVec.isLt _)]
  simp only [BitVec.extractLsb'_toNat, Nat.shiftRight_eq_div_pow, Nat.shiftLeft_eq]
  omega

@[simp] theorem regOf_fieldOf (x : Reg) : regOf (fieldOf x) = x := rfl
@[simp] theorem fieldOf_regOf (f : Nibble) : fieldOf (regOf f) = f := rfl

/-- The formats as four nibbles. -/
theorem encodeNNN_eq (op : Nibble) (nnn : Addr12) :
    encodeNNN op nnn = op ++ nnn.extractLsb' 8 4 ++ nnn.extractLsb' 4 4 ++ nnn.extractLsb' 0 4 := by
  apply BitVec.eq_of_toNat_eq
  have := nnn.isLt
  refine Eq.trans ?_ (toNat_append4 _ _ _ _).symm
  rw [encodeNNN, BitVec.toNat_append, ← Nat.shiftLeft_add_eq_or_of_lt nnn.isLt]
  simp only [BitVec.extractLsb'_toNat, Nat.shiftRight_eq_div_pow, Nat.shiftLeft_eq]
  omega

theorem encodeXKK_eq (op : Nibble) (x : Reg) (kk : Byte) :
    encodeXKK op x kk = op ++ fieldOf x ++ kk.extractLsb' 4 4 ++ kk.extractLsb' 0 4 := by
  apply BitVec.eq_of_toNat_eq
  have := kk.isLt
  refine Eq.trans ?_ (toNat_append4 _ _ _ _).symm
  rw [encodeXKK, BitVec.toNat_append, BitVec.toNat_append, ← Nat.shiftLeft_add_eq_or_of_lt kk.isLt,
    ← Nat.shiftLeft_add_eq_or_of_lt (fieldOf x).isLt]
  simp only [BitVec.extractLsb'_toNat, Nat.shiftRight_eq_div_pow, Nat.shiftLeft_eq]
  omega

/-- What a word of format `NNN` decodes by. -/
theorem decodeWord_encodeNNN (op : Nibble) (nnn : Addr12) : decodeWord (encodeNNN op nnn) =
    match decodeNibbles op (nnn.extractLsb' 8 4) (nnn.extractLsb' 4 4) (nnn.extractLsb' 0 4) with
    | some i => .instr i
    | none => .unrecognized (encodeNNN op nnn) := by
  rw [encodeNNN_eq]; exact decodeWord_append4 _ _ _ _

/-- What a word of format `XKK` decodes by. -/
theorem decodeWord_encodeXKK (op : Nibble) (x : Reg) (kk : Byte) : decodeWord (encodeXKK op x kk) =
    match decodeNibbles op (fieldOf x) (kk.extractLsb' 4 4) (kk.extractLsb' 0 4) with
    | some i => .instr i
    | none => .unrecognized (encodeXKK op x kk) := by
  rw [encodeXKK_eq]; exact decodeWord_append4 _ _ _ _

/-- What a word of format `XYN` decodes by. -/
theorem decodeWord_encodeXYN (op : Nibble) (x y : Reg) (n : Nibble) : decodeWord (encodeXYN op x y n) =
    match decodeNibbles op (fieldOf x) (fieldOf y) n with
    | some i => .instr i
    | none => .unrecognized (encodeXYN op x y n) := decodeWord_append4 _ _ _ _

end Sys2Proof
end

