-- ==== Sys2Proof/Laws/Display.lean ====
section
/-! SUPPORT. What a draw does to each pixel and to the collision flag, and which pixels a sprite covers. -/

namespace Sys2Proof.Machine

@[simp] theorem Display.clear_pixel (p : Pixel) : Display.clear.pixel p = false := by
  simp [Display.clear, Display.pixel]

/-- One flip: the pixel itself inverts, every other keeps its value. -/
theorem Display.flip_pixel (d : Display) (p q : Pixel) :
    (d.flip p).pixel q = if q = p then !d.pixel p else d.pixel q := by
  obtain ⟨r, c⟩ := p
  obtain ⟨r', c'⟩ := q
  simp only [Display.flip, Display.pixel, Vector.getElem_set, Prod.mk.injEq, Fin.ext_iff]
  by_cases hr : r.val = r'.val
  · by_cases hc : c.val = c'.val
    · simp [hr, hc]
    · simp [hr, hc, Ne.symm hc]
  · simp [hr, Ne.symm hr]

/-- Displays are equal when every pixel is. -/
theorem Display.ext_pixel {d e : Display} (h : ∀ p, d.pixel p = e.pixel p) : d = e := by
  refine Vector.ext fun r hr => Vector.ext fun c hc => ?_
  exact h (⟨r, hr⟩, ⟨c, hc⟩)

/-- A draw of pixels that are all different inverts exactly those, and collides exactly when one of them was lit. -/
theorem foldl_xorPixel (ps : List Pixel) (hn : ps.Nodup) : ∀ (d : Display) (col : Bool),
    (∀ q, (ps.foldl xorPixel (d, col)).1.pixel q = if q ∈ ps then !d.pixel q else d.pixel q) ∧
    (ps.foldl xorPixel (d, col)).2 = (col || ps.any fun p => d.pixel p) := by
  induction ps with
  | nil => intro d col; simp
  | cons p ps ih =>
    intro d col
    obtain ⟨hp, hps⟩ := List.nodup_cons.1 hn
    obtain ⟨h1, h2⟩ := ih hps (d.flip p) (col || d.pixel p)
    refine ⟨fun q => ?_, ?_⟩
    · rw [List.foldl_cons, xorPixel, h1 q, Display.flip_pixel]
      by_cases hq : q = p
      · subst hq; simp [hp]
      · simp [hq]
    · rw [List.foldl_cons, xorPixel, h2]
      have : (ps.any fun q => (d.flip p).pixel q) = ps.any fun q => d.pixel q := by
        rw [Bool.eq_iff_iff, List.any_eq_true, List.any_eq_true]
        refine exists_congr fun q => and_congr_right fun hq => ?_
        rw [Display.flip_pixel, if_neg fun e : q = p => hp (e ▸ hq)]
      rw [this, List.any_cons, Bool.or_assoc]

theorem drawPixels_pixel {ps : List Pixel} (hn : ps.Nodup) (d : Display) (q : Pixel) :
    (drawPixels d ps).1.pixel q = if q ∈ ps then !d.pixel q else d.pixel q := (foldl_xorPixel ps hn d false).1 q

theorem drawPixels_collision {ps : List Pixel} (hn : ps.Nodup) (d : Display) :
    (drawPixels d ps).2 = ps.any fun p => d.pixel p := by
  rw [drawPixels, (foldl_xorPixel ps hn d false).2, Bool.false_or]

/-- The pixels of one sprite byte (spec/46_display_system.md R291). -/
theorem mem_rowPixels {b : Byte} {row col : Nat} {p : Pixel} :
    p ∈ rowPixels b row col ↔ ∃ c < 8, b.getLsbD (7 - c) = true ∧ p = wrapPixel row (col + c) := by
  simp only [rowPixels, List.mem_filterMap, List.mem_range]
  constructor
  · rintro ⟨c, hc, h⟩
    split at h
    · cases h; exact ⟨c, hc, ‹_›, rfl⟩
    · cases h
  · rintro ⟨c, hc, hb, rfl⟩
    exact ⟨c, hc, if_pos hb⟩

/-- The pixels of a sprite's bytes (spec/46_display_system.md R291, R292). -/
theorem mem_spritePixels {bs : List Byte} {row col : Nat} {p : Pixel} :
    p ∈ spritePixels bs row col ↔ ∃ k, ∃ h : k < bs.length, ∃ c < 8, bs[k].getLsbD (7 - c) = true ∧
      p = wrapPixel (row + k) (col + c) := by
  induction bs generalizing row with
  | nil => simp [spritePixels]
  | cons b bs ih =>
    rw [spritePixels, List.mem_append, mem_rowPixels, ih]
    constructor
    · rintro (⟨c, hc, hb, hp⟩ | ⟨k, hk, c, hc, hb, hp⟩)
      · exact ⟨0, by simp, c, hc, hb, hp⟩
      · exact ⟨k + 1, by simpa using hk, c, hc, hb, by rw [hp]; congr 1; omega⟩
    · rintro ⟨k, hk, c, hc, hb, hp⟩
      cases k with
      | zero => exact .inl ⟨c, hc, hb, hp⟩
      | succ k => exact .inr ⟨k, by simpa using hk, c, hc, hb, by rw [hp]; congr 1; omega⟩

theorem wrapPixel_row (row col : Nat) : (wrapPixel row col).1.val = row % 32 := rfl
theorem wrapPixel_col (row col : Nat) : (wrapPixel row col).2.val = col % 64 := rfl

/-- No draw touches a pixel twice: a sprite has at most 32 rows, and 8 columns (spec/46_display_system.md R291). -/
theorem spritePixels_nodup {bs : List Byte} {row col : Nat} (h : bs.length ≤ 32) : (spritePixels bs row col).Nodup := by
  induction bs generalizing row with
  | nil => exact List.nodup_nil
  | cons b bs ih =>
    simp only [List.length_cons] at h
    rw [spritePixels, List.nodup_append]
    refine ⟨?_, ih (by omega), ?_⟩
    · rw [rowPixels, List.Nodup, List.pairwise_filterMap]
      refine List.Pairwise.imp_of_mem ?_ (List.nodup_range (n := 8))
      intro c c' hc hc' hne p hp q hq e
      rw [List.mem_range] at hc hc'
      have hp' : wrapPixel row (col + c) = p := by
        revert hp; simp only [Option.ite_none_right_eq_some, Option.some.injEq]; exact fun h => h.2
      have hq' : wrapPixel row (col + c') = q := by
        revert hq; simp only [Option.ite_none_right_eq_some, Option.some.injEq]; exact fun h => h.2
      have := congrArg (fun p : Pixel => p.2.val) (hp'.trans (e.trans hq'.symm))
      simp only [wrapPixel_col] at this
      omega
    · rintro p hp q hq rfl
      obtain ⟨c, _, _, e⟩ := mem_rowPixels.1 hp
      obtain ⟨k, hk, c', _, _, e'⟩ := mem_spritePixels.1 hq
      have := congrArg (fun p : Pixel => p.1.val) (e.symm.trans e')
      simp only [wrapPixel_row] at this
      omega

/-- How many bytes the sprite of `n` has, and which. -/
theorem Memory.readBytes_length (m : Memory) (a n : Nat) : (m.readBytes a n).length = n := by
  simp [Memory.readBytes]

theorem Memory.readBytes_getElem (m : Memory) (a n k : Nat) (h : k < (m.readBytes a n).length) :
    (m.readBytes a n)[k] = m.read (a + k) := by
  simp [Memory.readBytes]

/-- A sprite's pixels are all different. -/
theorem State.spriteOf_nodup (s : State) (x y : Reg) (n : Nibble) : (s.spriteOf x y n).Nodup :=
  spritePixels_nodup (by rw [Memory.readBytes_length]; have := n.isLt; omega)

/-- A pixel is one of a sprite's exactly when the sprite covers it. -/
theorem State.mem_spriteOf (s : State) (x y : Reg) (n : Nibble) (r : Fin 32) (c : Fin 64) :
    (r, c) ∈ s.spriteOf x y n ↔ spriteCovers s x y n r c := by
  rw [State.spriteOf, mem_spritePixels]
  constructor
  · rintro ⟨k, hk, b, hb, hbit, hp⟩
    rw [Memory.readBytes_getElem] at hbit
    rw [Memory.readBytes_length] at hk
    exact ⟨k, b, hk, hb, (congrArg (fun p : Pixel => p.1.val) hp).symm, (congrArg (fun p : Pixel => p.2.val) hp).symm, hbit⟩
  · rintro ⟨k, b, hk, hb, hr, hc, hbit⟩
    refine ⟨k, by rwa [Memory.readBytes_length], b, hb, by rwa [Memory.readBytes_getElem], ?_⟩
    exact Prod.ext (Fin.ext hr.symm) (Fin.ext hc.symm)

end Sys2Proof.Machine
end

