-- ==== Sys2Proof/Laws/Memory.lean ====
section
/-! SUPPORT. Memory: what a read gives after a write, and that every memory operation keeps the canonical form. -/

namespace Sys2Proof.Machine

/-! ### The font -/

/-- The 4 pixels of a glyph's row are the high bits of its byte (spec/44_index_memory.md R235). -/
theorem glyphByte_high (row : Nibble) {b : Nat} (h : b < 4) : (glyphByte row).getLsbD (4 + b) = row.getLsbD b := by
  rw [glyphByte, BitVec.getLsbD_append, if_neg (by omega), Nat.add_sub_cancel_left]

/-- The low bits of a glyph's byte are zero (spec/44_index_memory.md R235). -/
theorem glyphByte_low (row : Nibble) {b : Nat} (h : b < 4) : (glyphByte row).getLsbD b = false := by
  rw [glyphByte, BitVec.getLsbD_append, if_pos h]; exact BitVec.getLsbD_zero

/-- Every byte of the font's place is the byte of its glyph's row. -/
theorem initialByte_font {a : Nat} (h : a < 80) : initialByte a = glyphByte (Config.glyphRows[a / 5])[a % 5] := by
  rw [initialByte, dif_pos h, font, fontOf, Vector.getElem_ofFn]

/-- The glyph of digit `d` starts at `5 * d`, its top row first (spec/44_index_memory.md R235). -/
theorem initialByte_glyph (d : Fin 16) (k : Fin 5) :
    initialByte (5 * d.val + k.val) = glyphByte (Config.glyphRows[d.val])[k.val] := by
  rw [initialByte_font (by omega)]
  simp only [show (5 * d.val + k.val) / 5 = d.val by omega, show (5 * d.val + k.val) % 5 = k.val by omega]

/-- Memory after reset reads as the reset contents. -/
theorem reset_mem_read (a : Nat) : State.reset.mem.read a = initialByte a := rfl

/-! ### Reads and writes -/

theorem readCells_insertCell (a b : Nat) (x : Byte) (cells : List Host.Cell) :
    readCells (insertCell a x cells) b = if b = a then x else readCells cells b := by
  induction cells with
  | nil => simp [insertCell, readCells]
  | cons c rest ih =>
    obtain ⟨k, y⟩ := c
    simp only [insertCell]
    split
    · simp [readCells]
    · split
      · subst_vars; simp only [readCells]; split <;> simp_all
      · simp only [readCells, ih]; split <;> split <;> simp_all

theorem readCells_eraseCell (a b : Nat) (cells : List Host.Cell) :
    readCells (eraseCell a cells) b = if b = a then initialByte a else readCells cells b := by
  induction cells with
  | nil => simp only [eraseCell, readCells]; split <;> simp_all
  | cons c rest ih =>
    obtain ⟨k, y⟩ := c
    simp only [eraseCell]
    split
    · subst_vars; simp only [readCells, ih]; split <;> simp_all
    · simp only [readCells, ih]; split <;> split <;> simp_all

/-- A list canonical from an address on is canonical from every lower one. -/
theorem cellsCanonical_mono {lo lo' : Nat} (h : lo' ≤ lo) {cells : List Host.Cell}
    (w : cellsCanonical lo cells = true) : cellsCanonical lo' cells = true := by
  cases cells with
  | nil => rfl
  | cons c rest =>
    simp only [cellsCanonical, Bool.and_eq_true, decide_eq_true_eq] at w ⊢
    exact ⟨⟨⟨le_trans h w.1.1.1, w.1.1.2⟩, w.1.2⟩, w.2⟩

theorem insertCell_canonical {a : Nat} {x : Byte} (ha : a < 0x1000) (hx : x ≠ initialByte a)
    (cells : List Host.Cell) : ∀ lo, lo ≤ a → cellsCanonical lo cells = true →
      cellsCanonical lo (insertCell a x cells) = true := by
  induction cells with
  | nil => intro lo hlo _; simp [insertCell, cellsCanonical, hlo, ha, hx]
  | cons c rest ih =>
    obtain ⟨k, y⟩ := c
    intro lo hlo w
    simp only [cellsCanonical, Bool.and_eq_true, decide_eq_true_eq, Config.memSize] at w
    obtain ⟨⟨⟨h1, h2⟩, h3⟩, h4⟩ := w
    simp only [insertCell]
    split
    · simp only [cellsCanonical, Bool.and_eq_true, decide_eq_true_eq, Config.memSize]
      exact ⟨⟨⟨hlo, ha⟩, hx⟩, ⟨⟨by omega, h2⟩, h3⟩, h4⟩
    · split
      · subst_vars
        simp only [cellsCanonical, Bool.and_eq_true, decide_eq_true_eq, Config.memSize]
        exact ⟨⟨⟨hlo, ha⟩, hx⟩, h4⟩
      · simp only [cellsCanonical, Bool.and_eq_true, decide_eq_true_eq, Config.memSize]
        exact ⟨⟨⟨h1, h2⟩, h3⟩, ih _ (by omega) h4⟩

theorem eraseCell_canonical (a : Nat) (cells : List Host.Cell) : ∀ lo, cellsCanonical lo cells = true →
    cellsCanonical lo (eraseCell a cells) = true := by
  induction cells with
  | nil => intro lo _; rfl
  | cons c rest ih =>
    obtain ⟨k, y⟩ := c
    intro lo w
    simp only [cellsCanonical, Bool.and_eq_true, decide_eq_true_eq, Config.memSize] at w
    obtain ⟨⟨⟨h1, h2⟩, h3⟩, h4⟩ := w
    simp only [eraseCell]
    split
    · exact ih _ (cellsCanonical_mono (by omega) h4)
    · simp only [cellsCanonical, Bool.and_eq_true, decide_eq_true_eq, Config.memSize]
      exact ⟨⟨⟨h1, h2⟩, h3⟩, ih _ h4⟩

/-- A write in range keeps the canonical form. -/
theorem Memory.write_wf {m : Memory} {a : Nat} {x : Byte} (ha : a < 0x1000) (w : m.wf = true) :
    (m.write a x).wf = true := by
  unfold Memory.write
  split
  · exact eraseCell_canonical _ _ _ w
  · exact insertCell_canonical ha ‹_› _ _ (Nat.zero_le _) w

/-- A block of writes in range keeps the canonical form. -/
theorem Memory.writeBytes_wf {m : Memory} {a : Nat} {xs : List Byte} (h : a + xs.length ≤ 0x1000)
    (w : m.wf = true) : (m.writeBytes a xs).wf = true := by
  induction xs generalizing m a with
  | nil => exact w
  | cons x xs ih =>
    simp only [List.length_cons] at h
    exact ih (by omega) (Memory.write_wf (by omega) w)

/-- A read after a write: the byte written at its address, the old byte elsewhere (spec/20_memory.md R76). -/
theorem Memory.write_read (m : Memory) (a b : Nat) (x : Byte) :
    (m.write a x).read b = if b = a then x else m.read b := by
  unfold Memory.write Memory.read
  split
  · subst_vars; exact readCells_eraseCell a b m.cells
  · exact readCells_insertCell a b x m.cells

/-- A read after a block of writes: the block's byte inside it, the old byte outside (spec/44_index_memory.md R233). -/
theorem Memory.writeBytes_read (m : Memory) (a b : Nat) (xs : List Byte) :
    (m.writeBytes a xs).read b = if a ≤ b ∧ b < a + xs.length then xs.getD (b - a) 0 else m.read b := by
  induction xs generalizing m a with
  | nil => rw [if_neg (by simp)]; rfl
  | cons x xs ih =>
    rw [Memory.writeBytes, ih, Memory.write_read]
    simp only [List.length_cons]
    by_cases h1 : a + 1 ≤ b ∧ b < a + 1 + xs.length
    · rw [if_pos h1, if_pos (by omega), show b - a = (b - (a + 1)) + 1 by omega, List.getD_cons_succ]
    · rw [if_neg h1]
      by_cases h2 : b = a
      · subst h2; simp
      · rw [if_neg h2, if_neg (by omega)]

end Sys2Proof.Machine
end

