-- ==== Sys2Proof/Laws/Ops.lean ====
section
/-! SUPPORT. One lemma per shared operation that says everything it can do. -/

namespace Sys2Proof.Machine

/-! ### Ending a step -/

/-- A Regular operation's end answers the advanced state and nothing else. -/
theorem retire_next {s t : State} : retire s = .next t ↔ t = s.advance := by
  simp [retire, eq_comm]

/-- A FlowControl operation's end answers its own state. -/
theorem retireFlow_next {s t : State} : retireFlow s = .next t ↔ t = s := by
  simp [retireFlow, eq_comm]

/-- A raised outcome is never a next state. -/
theorem raise_next {f : Fault} {t : State} : ¬ raise f = .next t := by simp [raise]

/-- A held or retired instruction: the state it is held on, or its effect advanced. -/
theorem retireOrAwait_next {e : Option State} {s t : State} :
    retireOrAwait e s = .next t ↔ (e = none ∧ t = s) ∨ ∃ u, e = some u ∧ t = u.advance := by
  cases e <;> simp [retireOrAwait, eq_comm]

/-! ### The checks -/

theorem blockFits_iff {base len : Nat} : blockFits base len = true ↔ len = 0 ∨ base + len ≤ 0x1000 := by
  simp [blockFits]

/-- A checked block operation: the operation where every byte is in memory, the lowest out-of-range address where not
(spec/44_index_memory.md R233). -/
theorem withBlock_eq (base len : Nat) (operation : Result) :
    withBlock base len operation =
      if len = 0 ∨ base + len ≤ 0x1000 then operation else .fault (.addressFault (max base 0x1000)) := by
  unfold withBlock
  by_cases h : len = 0 ∨ base + len ≤ 0x1000
  · rw [if_pos (blockFits_iff.2 h), if_pos h]
  · rw [if_neg (mt blockFits_iff.1 h), if_neg h]; rfl

/-- A checked block operation answers a next state only where the block fits. -/
theorem withBlock_next {base len : Nat} {operation : Result} {t : State} (h : withBlock base len operation = .next t) :
    (len = 0 ∨ base + len ≤ 0x1000) ∧ operation = .next t := by
  rw [withBlock_eq] at h
  split at h
  · exact ⟨‹_›, h⟩
  · cases h

/-- A key number below 16 names a key. -/
theorem keyNumber_of_lt {k : Byte} (h : k.toNat < 16) : keyNumber k = some ⟨k.toNat, h⟩ := by simp [keyNumber, h]

/-- A key number above 15 names none. -/
theorem keyNumber_of_ge {k : Byte} (h : 15 < k.toNat) : keyNumber k = none := by
  simp only [keyNumber]; rw [dif_neg (by omega)]

/-- A checked key operation: the operation on the key named, or `KeyIndexFault` (spec/42_skip.md R194). -/
theorem withKey_eq (k : Byte) (operation : Reg → Result) :
    withKey k operation = if h : k.toNat < 16 then operation ⟨k.toNat, h⟩ else .fault (.keyIndexFault k) := by
  unfold withKey
  by_cases h : k.toNat < 16
  · rw [keyNumber_of_lt h, dif_pos h]
  · rw [keyNumber_of_ge (by omega), dif_neg h]; rfl

/-! ### The call stack -/

/-- A push writes the slot `SP`, counts it, and changes nothing else; there is none with 16 entries
(spec/10_state.md R43, R44). -/
theorem State.push_eq_some {s t : State} {link : Word} (h : s.push link = some t) :
    ∃ hs : s.sp.val < 16, t.sp.val = s.sp.val + 1 ∧ t.stack = s.stack.set s.sp.val link hs ∧
      t = { s with stack := t.stack, sp := t.sp } := by
  unfold State.push at h
  split at h
  · cases h; exact ⟨‹_›, rfl, rfl, rfl⟩
  · cases h

theorem State.push_of_lt (s : State) (link : Word) (h : s.sp.val < 16) :
    s.push link = some { s with stack := s.stack.set s.sp.val link h, sp := ⟨s.sp.val + 1, by omega⟩ } := by
  unfold State.push; rw [dif_pos h]

theorem State.push_of_full (s : State) (link : Word) (h : s.sp.val = 16) : s.push link = none := by
  unfold State.push; rw [dif_neg (by simp [Config.stackDepth, h])]

/-- A pop reads the slot `SP - 1`, uncounts it, and changes nothing else; there is none with no entry
(spec/10_state.md R43, R44). -/
theorem State.pop_eq_some {s t : State} {link : Word} (h : s.pop = some (link, t)) :
    ∃ hs : s.sp.val - 1 < 16, 0 < s.sp.val ∧ t.sp.val = s.sp.val - 1 ∧ link = s.stack[s.sp.val - 1] ∧
      t = { s with sp := t.sp } := by
  unfold State.pop at h
  split at h
  · cases h; exact ⟨by have := s.sp.isLt; omega, ‹_›, rfl, rfl, rfl⟩
  · cases h

theorem State.pop_of_pos (s : State) (h : 0 < s.sp.val) :
    s.pop = some (s.stack[s.sp.val - 1]'(by have := s.sp.isLt; omega),
      { s with sp := ⟨s.sp.val - 1, by have := s.sp.isLt; omega⟩ }) := by
  unfold State.pop; rw [dif_pos h]

theorem State.pop_of_empty (s : State) (h : s.sp.val = 0) : s.pop = none := by
  unfold State.pop; rw [dif_neg (by omega)]

/-! ### The fetch -/

/-- The fetch: the two bytes at the pc, or the lowest of their addresses that is out of memory (spec/20_memory.md R72,
R75). -/
theorem fetchWord_eq (s : State) :
    fetchWord s = if s.pc.toNat + 2 ≤ 0x1000 then .ok (wordOfBytes (s.mem.read s.pc.toNat) (s.mem.read (s.pc.toNat + 1)))
      else .error (max s.pc.toNat 0x1000) := by
  unfold fetchWord
  by_cases h : s.pc.toNat + 2 ≤ 0x1000
  · rw [if_pos (blockFits_iff.2 (.inr h)), if_pos h]
  · rw [if_neg (by rw [blockFits_iff]; omega), if_neg h]; rfl

/-- The fetch reads the pc and memory only. -/
theorem fetchWord_congr {s t : State} (hp : t.pc = s.pc) (hm : t.mem = s.mem) : fetchWord t = fetchWord s := by
  simp only [fetchWord, hp, hm]

/-! ### Keys -/

theorem mem_keyNumbers (k : Reg) : k ∈ keyNumbers := by revert k; decide

/-- The lowest pressed key is pressed. -/
theorem lowestPressed_pressed {keys : Vector Bool 16} {k : Reg} (h : lowestPressed keys = some k) :
    keys[k.val] = true := by simpa using List.find?_some h

/-- A key is chosen only if it is pressed (spec/43_register_loads.md R216). -/
theorem choosePressed_pressed {keys : Vector Bool 16} {pick k : Reg} (h : choosePressed keys pick = some k) :
    keys[k.val] = true := by
  unfold choosePressed at h
  split at h
  · cases h; assumption
  · exact lowestPressed_pressed h

/-- No key is chosen exactly when none is pressed. -/
theorem choosePressed_none {keys : Vector Bool 16} {pick : Reg} :
    choosePressed keys pick = none ↔ ∀ k : Reg, keys[k.val] = false := by
  unfold choosePressed
  split
  · rename_i h
    simp only [reduceCtorEq, false_iff]
    exact fun hall => by simp [hall pick] at h
  · simp only [lowestPressed, List.find?_eq_none, Bool.not_eq_true]
    exact ⟨fun h k => h k (mem_keyNumbers k), fun h k _ => h k⟩

/-! ### Blocks of registers and bytes -/

@[simp] theorem State.regsUpTo_length (s : State) (x : Reg) : (s.regsUpTo x).length = x.val + 1 := by
  simp [State.regsUpTo, blockLength]

theorem State.regsUpTo_getD (s : State) (x : Reg) (k : Nat) (h : k ≤ x.val) :
    (s.regsUpTo x).getD k 0 = s.v[k]'(by omega) := by
  have hk : k < (s.regsUpTo x).length := by simp; omega
  rw [List.getD_eq_getElem _ _ hk]
  simp [State.regsUpTo]

@[simp] theorem bcdBytes_length (b : Byte) : (bcdBytes b).length = 3 := by simp [bcdBytes]

/-! ### Ticks -/

theorem tickTimer_toNat (t : Byte) : (tickTimer t).toNat = t.toNat - 1 := by
  unfold tickTimer
  split
  · subst_vars; rfl
  · rename_i h
    have : t.toNat ≠ 0 := fun h0 => h (by apply BitVec.eq_of_toNat_eq; simpa using h0)
    rw [BitVec.toNat_sub]; have := t.isLt; simp; omega

end Sys2Proof.Machine
end

