-- ==== Sys2Proof/Laws/Exec.lean ====
section
/-! SUPPORT. What each meaning answers, over the shared operations, so that no later proof unfolds the dispatch or a meaning. -/

namespace Sys2Proof.Machine

variable (s : State)

/-! ### Meanings that always answer a next state -/

theorem exec_clearScreen : exec .clearScreen s = .next ((s.setDisplay Display.clear).advance) := rfl
theorem exec_sysCall (nnn : Addr12) : exec (.sysCall nnn) s = .next s.advance := rfl
theorem exec_jump (nnn : Addr12) : exec (.jump nnn) s = .next (s.setPc (addressOf nnn)) := rfl
theorem exec_jumpPlusV0 (nnn : Addr12) :
    exec (.jumpPlusV0 nnn) s = .next (s.setPc (addressOf nnn + zext16 (s.reg 0))) := rfl
theorem exec_skipIfRegValEqual (x : Reg) (kk : Byte) :
    exec (.skipIfRegValEqual x kk) s = .next ((s.skipIf (s.reg x == kk)).advance) := rfl
theorem exec_skipIfRegValNotEqual (x : Reg) (kk : Byte) :
    exec (.skipIfRegValNotEqual x kk) s = .next ((s.skipIf (s.reg x != kk)).advance) := rfl
theorem exec_skipIfRegRegEqual (x y : Reg) :
    exec (.skipIfRegRegEqual x y) s = .next ((s.skipIf (s.reg x == s.reg y)).advance) := rfl
theorem exec_skipIfRegRegNotEqual (x y : Reg) :
    exec (.skipIfRegRegNotEqual x y) s = .next ((s.skipIf (s.reg x != s.reg y)).advance) := rfl
theorem exec_loadValToReg (x : Reg) (kk : Byte) : exec (.loadValToReg x kk) s = .next ((s.setReg x kk).advance) := rfl
theorem exec_loadRegToReg (x y : Reg) : exec (.loadRegToReg x y) s = .next ((s.setReg x (s.reg y)).advance) := rfl
theorem exec_loadDelayTimerToReg (x : Reg) :
    exec (.loadDelayTimerToReg x) s = .next ((s.setReg x s.dt).advance) := rfl
theorem exec_loadRegToDelayTimer (x : Reg) :
    exec (.loadRegToDelayTimer x) s = .next ((s.setDt (s.reg x)).advance) := rfl
theorem exec_loadRegToSoundTimer (x : Reg) :
    exec (.loadRegToSoundTimer x) s = .next ((s.setSt (s.reg x)).advance) := rfl
theorem exec_loadValToI (nnn : Addr12) : exec (.loadValToI nnn) s = .next ((s.setI (addressOf nnn)).advance) := rfl
theorem exec_loadSpriteLocationToI (x : Reg) :
    exec (.loadSpriteLocationToI x) s = .next ((s.setI (glyphAddress (s.reg x))).advance) := rfl
theorem exec_addRegToI (x : Reg) : exec (.addRegToI x) s = .next ((s.setI (s.i + zext16 (s.reg x))).advance) := rfl
theorem exec_orRegReg (x y : Reg) : exec (.orRegReg x y) s = .next ((s.setReg x (s.reg x ||| s.reg y)).advance) := rfl
theorem exec_andRegReg (x y : Reg) :
    exec (.andRegReg x y) s = .next ((s.setReg x (s.reg x &&& s.reg y)).advance) := rfl
theorem exec_xorRegReg (x y : Reg) :
    exec (.xorRegReg x y) s = .next ((s.setReg x (s.reg x ^^^ s.reg y)).advance) := rfl
theorem exec_addValToReg (x : Reg) (kk : Byte) :
    exec (.addValToReg x kk) s = .next ((s.setReg x (s.reg x + kk)).advance) := rfl
theorem exec_randomAndValToReg (x : Reg) (kk : Byte) :
    exec (.randomAndValToReg x kk) s = .next ((s.setReg x (s.host.rnd &&& kk)).advance) := rfl
theorem exec_addRegToReg (x y : Reg) :
    exec (.addRegToReg x y) s = .next ((s.setRegFlag x (s.reg x + s.reg y) (carryFlag (s.reg x) (s.reg y))).advance) := rfl
theorem exec_subRegFromReg (x y : Reg) :
    exec (.subRegFromReg x y) s = .next ((s.setRegFlag x (s.reg x - s.reg y) (notBorrowFlag (s.reg x) (s.reg y))).advance) := rfl
theorem exec_subnRegFromReg (x y : Reg) :
    exec (.subnRegFromReg x y) s = .next ((s.setRegFlag x (s.reg y - s.reg x) (notBorrowFlag (s.reg y) (s.reg x))).advance) := rfl
theorem exec_shiftRightReg (x y : Reg) :
    exec (.shiftRightReg x y) s = .next ((s.setRegFlag x (s.reg x >>> 1) (shiftRightFlag (s.reg x))).advance) := rfl
theorem exec_shiftLeftReg (x y : Reg) :
    exec (.shiftLeftReg x y) s = .next ((s.setRegFlag x (s.reg x <<< 1) (shiftLeftFlag (s.reg x))).advance) := rfl

/-- LoadKeyToReg: held on the same state with no key pressed, else a pressed key's number (spec/43_register_loads.md R216). -/
theorem exec_loadKeyToReg (x : Reg) : exec (.loadKeyToReg x) s =
    .next (match choosePressed s.keypad s.host.pick with
      | some k => (s.setReg x (BitVec.ofNat 8 k.val)).advance
      | none => s) := by
  show retireOrAwait _ _ = _
  unfold retireOrAwait
  cases choosePressed s.keypad s.host.pick <;> rfl

/-! ### Meanings that check first -/

/-- Call (spec/41_flow_control.md R172), under either link. -/
theorem callWith_eq (p : Config.ReturnLink) (nnn : Addr12) : callWith p nnn s =
    if h : s.sp.val < 16 then
      .next { s with
        pc := addressOf nnn, sp := ⟨s.sp.val + 1, by omega⟩, stack := s.stack.set s.sp.val (linkOf p s.pc) h }
    else .fault .stackOverflow := by
  unfold callWith
  split
  · rename_i t ht
    obtain ⟨h, _⟩ := State.push_eq_some ht
    rw [State.push_of_lt _ _ h] at ht
    cases ht
    rw [dif_pos h]; rfl
  · rename_i ht
    rw [dif_neg]
    · rfl
    · intro h; rw [State.push_of_lt _ _ h] at ht; cases ht

theorem exec_call (nnn : Addr12) : exec (.call nnn) s = callWith .atCall nnn s := rfl

/-- Return (spec/41_flow_control.md R173). -/
theorem exec_ret : exec .ret s =
    if h : 0 < s.sp.val then
      .next { s with
        pc := s.stack[s.sp.val - 1]'(by have := s.sp.isLt; omega),
        sp := ⟨s.sp.val - 1, by have := s.sp.isLt; omega⟩ }
    else .fault .stackUnderflow := by
  show execReturn s = _
  unfold execReturn
  by_cases h : 0 < s.sp.val
  · rw [State.pop_of_pos _ h, dif_pos h]; rfl
  · rw [State.pop_of_empty _ (by omega), dif_neg h]; rfl

theorem exec_skipIfKeyPressed (x : Reg) : exec (.skipIfKeyPressed x) s =
    if h : (s.reg x).toNat < 16 then .next (s.skipIf (s.key ⟨(s.reg x).toNat, h⟩)).advance
    else .fault (.keyIndexFault (s.reg x)) := withKey_eq _ _

theorem exec_skipIfKeyNotPressed (x : Reg) : exec (.skipIfKeyNotPressed x) s =
    if h : (s.reg x).toNat < 16 then .next (s.skipIf (!s.key ⟨(s.reg x).toNat, h⟩)).advance
    else .fault (.keyIndexFault (s.reg x)) := withKey_eq _ _

theorem exec_loadRegBcdToMem (x : Reg) : exec (.loadRegBcdToMem x) s =
    if s.i.toNat + 3 ≤ 0x1000 then .next (s.setMem (s.mem.writeBytes s.i.toNat (bcdBytes (s.reg x)))).advance
    else .fault (.addressFault (max s.i.toNat 0x1000)) := by
  show withBlock _ _ _ = _
  rw [withBlock_eq]; simp [retire]

theorem exec_loadRegsToMem (x : Reg) : exec (.loadRegsToMem x) s =
    if s.i.toNat + (x.val + 1) ≤ 0x1000 then .next (s.setMem (s.mem.writeBytes s.i.toNat (s.regsUpTo x))).advance
    else .fault (.addressFault (max s.i.toNat 0x1000)) := by
  show withBlock _ _ _ = _
  rw [withBlock_eq]; simp [retire, blockLength]

theorem exec_loadMemToRegs (x : Reg) : exec (.loadMemToRegs x) s =
    if s.i.toNat + (x.val + 1) ≤ 0x1000 then .next (s.loadRegs x).advance
    else .fault (.addressFault (max s.i.toNat 0x1000)) := by
  show withBlock _ _ _ = _
  rw [withBlock_eq]; simp [retire, blockLength]

theorem exec_drawSprite (x y : Reg) (n : Nibble) : exec (.drawSprite x y n) s =
    if n.toNat = 0 ∨ s.i.toNat + n.toNat ≤ 0x1000 then
      .next ((s.setDisplay (drawPixels s.display (s.spriteOf x y n)).1).setFlag
        (collisionFlag (drawPixels s.display (s.spriteOf x y n)).2)).advance
    else .fault (.addressFault (max s.i.toNat 0x1000)) := withBlock_eq _ _ _

end Sys2Proof.Machine
end

