-- ==== Sys2Proof/Laws/PerInstr.lean ====
section
/-! SUPPORT. Statements about every instruction, one lemma per constructor. -/

namespace Sys2Proof.Laws.EncodesOwnRow

/-- The encoded word of an instruction fits its own row of the decode table (spec/30_encoding.md R107, R108, R114). -/
def Statement (i : Instr) : Prop := ∃ r ∈ opcodeTable, r.name = i.mnemonic ∧ r.matchesWord (encode i) = true

/-- A row is in the table if one of its two parts lists it. -/
theorem mem_opcodeTable {r : OpcodeRow} (h : (opcodeRowsLow.contains r || opcodeRowsHigh.contains r) = true) :
    r ∈ opcodeTable := by
  simpa [opcodeTable] using h

theorem encodeNNN_and (op : Nibble) (nnn : Addr12) :
    encodeNNN op nnn &&& 0xF000#16 = op ++ (0#12 : Addr12) := by
  have h : (0xF000#16 : Word) = 0xF#4 ++ 0#12 := by decide
  rw [encodeNNN, h, BitVec.and_append, BitVec.and_zero, show op &&& 0xF#4 = op from BitVec.and_allOnes]

theorem encodeXKK_and_op (op : Nibble) (x : Reg) (kk : Byte) :
    encodeXKK op x kk &&& 0xF000#16 = op ++ (0#4 : Nibble) ++ (0#8 : Byte) := by
  have h : (0xF000#16 : Word) = 0xF#4 ++ 0#4 ++ 0#8 := by decide
  rw [encodeXKK, h, BitVec.and_append, BitVec.and_append, BitVec.and_zero, BitVec.and_zero,
    show op &&& 0xF#4 = op from BitVec.and_allOnes]

theorem encodeXKK_and_fn (op : Nibble) (x : Reg) (kk : Byte) :
    encodeXKK op x kk &&& 0xF0FF#16 = op ++ (0#4 : Nibble) ++ kk := by
  have h : (0xF0FF#16 : Word) = 0xF#4 ++ 0#4 ++ 0xFF#8 := by decide
  rw [encodeXKK, h, BitVec.and_append, BitVec.and_append, BitVec.and_zero,
    show op &&& 0xF#4 = op from BitVec.and_allOnes, show kk &&& 0xFF#8 = kk from BitVec.and_allOnes]

theorem encodeXYN_and_fn (op : Nibble) (x y : Reg) (n : Nibble) :
    encodeXYN op x y n &&& 0xF00F#16 = op ++ (0#4 : Nibble) ++ (0#4 : Nibble) ++ n := by
  have h : (0xF00F#16 : Word) = 0xF#4 ++ 0#4 ++ 0#4 ++ 0xF#4 := by decide
  rw [encodeXYN, h, BitVec.and_append, BitVec.and_append, BitVec.and_append, BitVec.and_zero, BitVec.and_zero,
    show op &&& 0xF#4 = op from BitVec.and_allOnes, show n &&& 0xF#4 = n from BitVec.and_allOnes]

theorem encodeXYN_and_op (op : Nibble) (x y : Reg) (n : Nibble) :
    encodeXYN op x y n &&& 0xF000#16 = op ++ (0#4 : Nibble) ++ (0#4 : Nibble) ++ (0#4 : Nibble) := by
  have h : (0xF000#16 : Word) = 0xF#4 ++ 0#4 ++ 0#4 ++ 0#4 := by decide
  rw [encodeXYN, h, BitVec.and_append, BitVec.and_append, BitVec.and_append, BitVec.and_zero, BitVec.and_zero,
    BitVec.and_zero, show op &&& 0xF#4 = op from BitVec.and_allOnes]

/-- A row fits a word when the masked word is its pattern. -/
theorem matches_of_eq {r : OpcodeRow} {w v : Word} (h : w &&& r.mask = v) (hv : v = r.pattern) :
    r.matchesWord w = true := by
  simp [OpcodeRow.matchesWord, h, hv]

theorem clearScreen : Statement .clearScreen :=
  ⟨⟨"ClearScreen", 0xFFFF, 0x00E0⟩, mem_opcodeTable (by decide), rfl, by decide⟩
theorem ret : Statement .ret :=
  ⟨⟨"Return", 0xFFFF, 0x00EE⟩, mem_opcodeTable (by decide), rfl, by decide⟩
theorem sysCall (nnn : Addr12) : Statement (.sysCall nnn) :=
  ⟨⟨"SysCall", 0xF000, 0x0000⟩, mem_opcodeTable (by decide), rfl, matches_of_eq (encodeNNN_and _ _) (by decide)⟩
theorem jump (nnn : Addr12) : Statement (.jump nnn) :=
  ⟨⟨"Jump", 0xF000, 0x1000⟩, mem_opcodeTable (by decide), rfl, matches_of_eq (encodeNNN_and _ _) (by decide)⟩
theorem call (nnn : Addr12) : Statement (.call nnn) :=
  ⟨⟨"Call", 0xF000, 0x2000⟩, mem_opcodeTable (by decide), rfl, matches_of_eq (encodeNNN_and _ _) (by decide)⟩
theorem skipIfRegValEqual (x : Reg) (kk : Byte) : Statement (.skipIfRegValEqual x kk) :=
  ⟨⟨"SkipIfRegValEqual", 0xF000, 0x3000⟩, mem_opcodeTable (by decide), rfl, matches_of_eq (encodeXKK_and_op _ _ _) (by decide)⟩
theorem skipIfRegValNotEqual (x : Reg) (kk : Byte) : Statement (.skipIfRegValNotEqual x kk) :=
  ⟨⟨"SkipIfRegValNotEqual", 0xF000, 0x4000⟩, mem_opcodeTable (by decide), rfl, matches_of_eq (encodeXKK_and_op _ _ _) (by decide)⟩
theorem skipIfRegRegEqual (x y : Reg) : Statement (.skipIfRegRegEqual x y) :=
  ⟨⟨"SkipIfRegRegEqual", 0xF00F, 0x5000⟩, mem_opcodeTable (by decide), rfl, matches_of_eq (encodeXYN_and_fn _ _ _ _) (by decide)⟩
theorem loadValToReg (x : Reg) (kk : Byte) : Statement (.loadValToReg x kk) :=
  ⟨⟨"LoadValToReg", 0xF000, 0x6000⟩, mem_opcodeTable (by decide), rfl, matches_of_eq (encodeXKK_and_op _ _ _) (by decide)⟩
theorem addValToReg (x : Reg) (kk : Byte) : Statement (.addValToReg x kk) :=
  ⟨⟨"AddValToReg", 0xF000, 0x7000⟩, mem_opcodeTable (by decide), rfl, matches_of_eq (encodeXKK_and_op _ _ _) (by decide)⟩
theorem loadRegToReg (x y : Reg) : Statement (.loadRegToReg x y) :=
  ⟨⟨"LoadRegToReg", 0xF00F, 0x8000⟩, mem_opcodeTable (by decide), rfl, matches_of_eq (encodeXYN_and_fn _ _ _ _) (by decide)⟩
theorem orRegReg (x y : Reg) : Statement (.orRegReg x y) :=
  ⟨⟨"OrRegReg", 0xF00F, 0x8001⟩, mem_opcodeTable (by decide), rfl, matches_of_eq (encodeXYN_and_fn _ _ _ _) (by decide)⟩
theorem andRegReg (x y : Reg) : Statement (.andRegReg x y) :=
  ⟨⟨"AndRegReg", 0xF00F, 0x8002⟩, mem_opcodeTable (by decide), rfl, matches_of_eq (encodeXYN_and_fn _ _ _ _) (by decide)⟩
theorem xorRegReg (x y : Reg) : Statement (.xorRegReg x y) :=
  ⟨⟨"XorRegReg", 0xF00F, 0x8003⟩, mem_opcodeTable (by decide), rfl, matches_of_eq (encodeXYN_and_fn _ _ _ _) (by decide)⟩
theorem addRegToReg (x y : Reg) : Statement (.addRegToReg x y) :=
  ⟨⟨"AddRegToReg", 0xF00F, 0x8004⟩, mem_opcodeTable (by decide), rfl, matches_of_eq (encodeXYN_and_fn _ _ _ _) (by decide)⟩
theorem subRegFromReg (x y : Reg) : Statement (.subRegFromReg x y) :=
  ⟨⟨"SubRegFromReg", 0xF00F, 0x8005⟩, mem_opcodeTable (by decide), rfl, matches_of_eq (encodeXYN_and_fn _ _ _ _) (by decide)⟩
theorem shiftRightReg (x y : Reg) : Statement (.shiftRightReg x y) :=
  ⟨⟨"ShiftRightReg", 0xF00F, 0x8006⟩, mem_opcodeTable (by decide), rfl, matches_of_eq (encodeXYN_and_fn _ _ _ _) (by decide)⟩
theorem subnRegFromReg (x y : Reg) : Statement (.subnRegFromReg x y) :=
  ⟨⟨"SubnRegFromReg", 0xF00F, 0x8007⟩, mem_opcodeTable (by decide), rfl, matches_of_eq (encodeXYN_and_fn _ _ _ _) (by decide)⟩
theorem shiftLeftReg (x y : Reg) : Statement (.shiftLeftReg x y) :=
  ⟨⟨"ShiftLeftReg", 0xF00F, 0x800E⟩, mem_opcodeTable (by decide), rfl, matches_of_eq (encodeXYN_and_fn _ _ _ _) (by decide)⟩
theorem skipIfRegRegNotEqual (x y : Reg) : Statement (.skipIfRegRegNotEqual x y) :=
  ⟨⟨"SkipIfRegRegNotEqual", 0xF00F, 0x9000⟩, mem_opcodeTable (by decide), rfl, matches_of_eq (encodeXYN_and_fn _ _ _ _) (by decide)⟩
theorem loadValToI (nnn : Addr12) : Statement (.loadValToI nnn) :=
  ⟨⟨"LoadValToI", 0xF000, 0xA000⟩, mem_opcodeTable (by decide), rfl, matches_of_eq (encodeNNN_and _ _) (by decide)⟩
theorem jumpPlusV0 (nnn : Addr12) : Statement (.jumpPlusV0 nnn) :=
  ⟨⟨"JumpPlusV0", 0xF000, 0xB000⟩, mem_opcodeTable (by decide), rfl, matches_of_eq (encodeNNN_and _ _) (by decide)⟩
theorem randomAndValToReg (x : Reg) (kk : Byte) : Statement (.randomAndValToReg x kk) :=
  ⟨⟨"RandomAndValToReg", 0xF000, 0xC000⟩, mem_opcodeTable (by decide), rfl, matches_of_eq (encodeXKK_and_op _ _ _) (by decide)⟩
theorem drawSprite (x y : Reg) (n : Nibble) : Statement (.drawSprite x y n) :=
  ⟨⟨"DrawSprite", 0xF000, 0xD000⟩, mem_opcodeTable (by decide), rfl, matches_of_eq (encodeXYN_and_op _ _ _ _) (by decide)⟩
theorem skipIfKeyPressed (x : Reg) : Statement (.skipIfKeyPressed x) :=
  ⟨⟨"SkipIfKeyPressed", 0xF0FF, 0xE09E⟩, mem_opcodeTable (by decide), rfl, matches_of_eq (encodeXKK_and_fn _ _ _) (by decide)⟩
theorem skipIfKeyNotPressed (x : Reg) : Statement (.skipIfKeyNotPressed x) :=
  ⟨⟨"SkipIfKeyNotPressed", 0xF0FF, 0xE0A1⟩, mem_opcodeTable (by decide), rfl, matches_of_eq (encodeXKK_and_fn _ _ _) (by decide)⟩
theorem loadDelayTimerToReg (x : Reg) : Statement (.loadDelayTimerToReg x) :=
  ⟨⟨"LoadDelayTimerToReg", 0xF0FF, 0xF007⟩, mem_opcodeTable (by decide), rfl, matches_of_eq (encodeXKK_and_fn _ _ _) (by decide)⟩
theorem loadKeyToReg (x : Reg) : Statement (.loadKeyToReg x) :=
  ⟨⟨"LoadKeyToReg", 0xF0FF, 0xF00A⟩, mem_opcodeTable (by decide), rfl, matches_of_eq (encodeXKK_and_fn _ _ _) (by decide)⟩
theorem loadRegToDelayTimer (x : Reg) : Statement (.loadRegToDelayTimer x) :=
  ⟨⟨"LoadRegToDelayTimer", 0xF0FF, 0xF015⟩, mem_opcodeTable (by decide), rfl, matches_of_eq (encodeXKK_and_fn _ _ _) (by decide)⟩
theorem loadRegToSoundTimer (x : Reg) : Statement (.loadRegToSoundTimer x) :=
  ⟨⟨"LoadRegToSoundTimer", 0xF0FF, 0xF018⟩, mem_opcodeTable (by decide), rfl, matches_of_eq (encodeXKK_and_fn _ _ _) (by decide)⟩
theorem addRegToI (x : Reg) : Statement (.addRegToI x) :=
  ⟨⟨"AddRegToI", 0xF0FF, 0xF01E⟩, mem_opcodeTable (by decide), rfl, matches_of_eq (encodeXKK_and_fn _ _ _) (by decide)⟩
theorem loadSpriteLocationToI (x : Reg) : Statement (.loadSpriteLocationToI x) :=
  ⟨⟨"LoadSpriteLocationToI", 0xF0FF, 0xF029⟩, mem_opcodeTable (by decide), rfl, matches_of_eq (encodeXKK_and_fn _ _ _) (by decide)⟩
theorem loadRegBcdToMem (x : Reg) : Statement (.loadRegBcdToMem x) :=
  ⟨⟨"LoadRegBcdToMem", 0xF0FF, 0xF033⟩, mem_opcodeTable (by decide), rfl, matches_of_eq (encodeXKK_and_fn _ _ _) (by decide)⟩
theorem loadRegsToMem (x : Reg) : Statement (.loadRegsToMem x) :=
  ⟨⟨"LoadRegsToMem", 0xF0FF, 0xF055⟩, mem_opcodeTable (by decide), rfl, matches_of_eq (encodeXKK_and_fn _ _ _) (by decide)⟩
theorem loadMemToRegs (x : Reg) : Statement (.loadMemToRegs x) :=
  ⟨⟨"LoadMemToRegs", 0xF0FF, 0xF065⟩, mem_opcodeTable (by decide), rfl, matches_of_eq (encodeXKK_and_fn _ _ _) (by decide)⟩

end Sys2Proof.Laws.EncodesOwnRow
end

