-- ==== Sys2Proof/Laws/Step.lean ====
section
/-! SUPPORT. Everything a step and its report can do, over the bytes at the pc. -/

namespace Sys2Proof.Machine

theorem wordOfBytes_toNat (a b : Byte) : (wordOfBytes a b).toNat = a.toNat * 256 + b.toNat := by
  rw [wordOfBytes, BitVec.toNat_append, ← Nat.shiftLeft_add_eq_or_of_lt b.isLt, Nat.shiftLeft_eq]

theorem byteHigh_wordOfBytes (a b : Byte) : (wordOfBytes a b).byteHigh = a := by
  apply BitVec.eq_of_toNat_eq
  have := a.isLt; have := b.isLt
  simp only [Word.byteHigh, BitVec.extractLsb'_toNat, wordOfBytes_toNat, Nat.shiftRight_eq_div_pow]
  omega

theorem byteLow_wordOfBytes (a b : Byte) : (wordOfBytes a b).byteLow = b := by
  apply BitVec.eq_of_toNat_eq
  have := a.isLt; have := b.isLt
  simp only [Word.byteLow, BitVec.extractLsb'_toNat, wordOfBytes_toNat, Nat.shiftRight_eq_div_pow]
  omega

/-- An unrecognized word is carried whole (spec/30_encoding.md R109). -/
theorem decode_unrecognized {a b : Byte} {raw : Word} (h : decode a b = .unrecognized raw) : raw = wordOfBytes a b := by
  unfold decode decodeWord at h
  split at h <;> cases h
  rfl

/-- A step: the decoded instruction on `S0`, the host's policy on an unrecognized word, or the fetch's fault. -/
theorem step_eq (s : State) : step s =
    if s.pc.toNat + 2 ≤ 0x1000 then
      match decode (s.mem.read s.pc.toNat) (s.mem.read (s.pc.toNat + 1)) with
      | .instr i => exec i (beginStep s)
      | .unrecognized raw => afterUnrecognized (nextInput s).onUnrecognized raw (beginStep s)
    else .fault (.addressFault (max s.pc.toNat 0x1000)) := by
  unfold step
  rw [fetchWord_eq, beginStep_pc, beginStep_mem]
  by_cases h : s.pc.toNat + 2 ≤ 0x1000
  · simp only [if_pos h, byteHigh_wordOfBytes, byteLow_wordOfBytes] <;> rfl
  · simp only [if_neg h]; rfl

/-- The report of a step, likewise. -/
theorem stepReport_eq (s : State) : stepReport s =
    if s.pc.toNat + 2 ≤ 0x1000 then
      match decode (s.mem.read s.pc.toNat) (s.mem.read (s.pc.toNat + 1)) with
      | .instr i => reportExec i (beginStep s)
      | .unrecognized raw => some (.unrecognized raw, beginStep s)
    else some (.addressFault (max s.pc.toNat 0x1000), beginStep s) := by
  unfold stepReport
  rw [fetchWord_eq, beginStep_pc, beginStep_mem]
  by_cases h : s.pc.toNat + 2 ≤ 0x1000
  · simp only [if_pos h, byteHigh_wordOfBytes, byteLow_wordOfBytes] <;> rfl
  · simp only [if_neg h]

end Sys2Proof.Machine
end

