-- ==== Sys2Proof/Tests/Slice0.lean ====
section
/-! SUPPORT. The model's own tests. Expected results come from spec/95_test_vectors.md (W1 to W14, T1 to T174, named in each
comment), from the examples in the instruction rules, or from the encodings of spec/30_encoding.md R107 written out bit by bit.
The witnesses at the end meet the hypotheses of the statements. -/

namespace Sys2Proof.Tests

open Sys2Proof.Machine

/-! ### Helpers -/

/-- A snapshot with the listed keys pressed. -/
def keysOf (ks : List Reg) : Vector Bool 16 := Vector.ofFn fun k => ks.contains k

/-- The host's input of a step: no tick, the listed keys, a random byte, a choice of key. -/
def inputOf (ks : List Reg) (rnd : Byte) (pick : Reg) : Config.HostInput := ⟨0, keysOf ks, rnd, pick, .halt⟩

/-- The reset state with a word at the pc and one input queued (no key, random byte 0). -/
def ready (w : Nat) : State := (State.reset.withFetchWord 16 w).withQueued [inputOf [] 0 0]

/-- The state with registers set. -/
def regs (s : State) : List (Reg × Byte) → State
  | [] => s
  | (x, b) :: rest => regs (s.setReg x b) rest

/-- The state with bytes from an address. -/
def bytes (s : State) (a : Nat) (bs : List Byte) : State := s.setMem (s.mem.writeBytes a bs)

/-- The state with pixels flipped, given as (row, column). -/
def pixels (s : State) (ps : List Pixel) : State := s.setDisplay (ps.foldl Display.flip s.display)

/-- What a function of the next state gives, if there is one. -/
def after {α : Type} (r : Result) (f : State → α) : Option α :=
  match r with
  | .next t => some (f t)
  | .fault _ => none
  | .refused _ => none

/-- The fault an answer stops with, if it does. -/
def stops (r : Result) : Option Fault :=
  match r with
  | .next _ => none
  | .fault f => some f
  | .refused _ => none

/-! ### Well-formedness -/

/-- spec/46_display_system.md R293: 0x0E0 and 0x0EE are no SysCall fields. -/
theorem test_wellFormed_refuses_clearScreen_field : (Instr.sysCall 0x0E0).wellFormed = false := by decide
theorem test_wellFormed_refuses_return_field : (Instr.sysCall 0x0EE).wellFormed = false := by decide
theorem test_wellFormed_accepts_sysCall : (Instr.sysCall 0x0EF).wellFormed = true := by decide

/-! ### Decoding: words written out from spec/30_encoding.md R103, R107 -/

theorem test_decode_flowControl :
    decodeWord 0b0001001101000101 = .instr (.jump 0x345) ∧ decodeWord 0b1011001100000000 = .instr (.jumpPlusV0 0x300) ∧
    decodeWord 0b0010001100000000 = .instr (.call 0x300) ∧ decodeWord 0b0000000011101110 = .instr .ret := by decide

theorem test_decode_skips :
    decodeWord 0b0011101001011100 = .instr (.skipIfRegValEqual 0xA 0x5C) ∧
    decodeWord 0b0100101001011100 = .instr (.skipIfRegValNotEqual 0xA 0x5C) ∧
    decodeWord 0b0101000100100000 = .instr (.skipIfRegRegEqual 1 2) ∧
    decodeWord 0b1001000100100000 = .instr (.skipIfRegRegNotEqual 1 2) ∧
    decodeWord 0b1110010110011110 = .instr (.skipIfKeyPressed 5) ∧
    decodeWord 0b1110010110100001 = .instr (.skipIfKeyNotPressed 5) := by decide

theorem test_decode_registerLoads :
    decodeWord 0b0110101000101111 = .instr (.loadValToReg 0xA 0x2F) ∧
    decodeWord 0b1000000100100000 = .instr (.loadRegToReg 1 2) ∧
    decodeWord 0b1111001100000111 = .instr (.loadDelayTimerToReg 3) ∧
    decodeWord 0b1111001000001010 = .instr (.loadKeyToReg 2) ∧
    decodeWord 0b1111001100010101 = .instr (.loadRegToDelayTimer 3) ∧
    decodeWord 0b1111010000011000 = .instr (.loadRegToSoundTimer 4) := by decide

theorem test_decode_indexMemory :
    decodeWord 0b1010001011110000 = .instr (.loadValToI 0x2F0) ∧
    decodeWord 0b1111000100011110 = .instr (.addRegToI 1) ∧
    decodeWord 0b1111000000101001 = .instr (.loadSpriteLocationToI 0) ∧
    decodeWord 0b1111011000110011 = .instr (.loadRegBcdToMem 6) ∧
    decodeWord 0b1111001001010101 = .instr (.loadRegsToMem 2) ∧
    decodeWord 0b1111001001100101 = .instr (.loadMemToRegs 2) := by decide

theorem test_decode_alu :
    decodeWord 0b0111000011111111 = .instr (.addValToReg 0 0xFF) ∧
    decodeWord 0b1000000100100001 = .instr (.orRegReg 1 2) ∧ decodeWord 0b1000000100100010 = .instr (.andRegReg 1 2) ∧
    decodeWord 0b1000000100100011 = .instr (.xorRegReg 1 2) ∧ decodeWord 0b1000000100100100 = .instr (.addRegToReg 1 2) ∧
    decodeWord 0b1000000100100101 = .instr (.subRegFromReg 1 2) ∧
    decodeWord 0b1000001100000110 = .instr (.shiftRightReg 3 0) ∧
    decodeWord 0b1000000100100111 = .instr (.subnRegFromReg 1 2) ∧
    decodeWord 0b1000001100001110 = .instr (.shiftLeftReg 3 0) ∧
    decodeWord 0b1100010000001111 = .instr (.randomAndValToReg 4 0x0F) := by decide

theorem test_decode_displaySystem :
    decodeWord 0b0000000011100000 = .instr .clearScreen ∧ decodeWord 0b0000000100100011 = .instr (.sysCall 0x123) ∧
    decodeWord 0b1101000000010010 = .instr (.drawSprite 0 1 2) := by decide

/-- T4 to T14: words near a row that match none, and SysCall beside Return. -/
theorem test_decode_unrecognized :
    decodeWord 0x5001 = .unrecognized 0x5001 ∧ decodeWord 0x800F = .unrecognized 0x800F ∧
    decodeWord 0x9001 = .unrecognized 0x9001 ∧ decodeWord 0xE09F = .unrecognized 0xE09F ∧
    decodeWord 0xF0FF = .unrecognized 0xF0FF ∧ decodeWord 0x00EF = .instr (.sysCall 0x0EF) := by decide

/-- spec/30_encoding.md R113, R114: the spelling of spec/95_test_vectors.md P1, and operands that do not fit. -/
theorem test_asm_line : (Instr.skipIfRegValEqual 0 0x00).asm = "SkipIfRegValEqual V0, 0x00" := by decide
theorem test_fit_refuses : fitReg 16 = none ∧ fitByte 0x100 = none ∧ fitAddr 0x1000 = none ∧ fitCount 16 = none := by
  decide

/-! ### The step (T15 to T21, W10) -/

/-- T15: an odd pc fetches as any other. -/
theorem test_step_odd_pc :
    after (step (bytes ((ready 0).setPc 0x201) 0x201 [0x60, 0x42])) (fun t => (t.reg 0, t.pc)) = some (0x42, 0x203) := by
  decide
/-- T16: the last whole word. -/
theorem test_step_last_word :
    after (step (bytes ((ready 0).setPc 0xFFE) 0xFFE [0x60, 0x42])) (fun t => (t.reg 0, t.pc)) = some (0x42, 0x1000) := by
  decide
/-- T17, T19. -/
theorem test_step_fetch_faults :
    stops (step ((ready 0).setPc 0xFFF)) = some (.addressFault 0x1000) ∧
    stops (step ((ready 0).setPc 0x10FE)) = some (.addressFault 0x10FE) := by decide
/-- W10: an unrecognized word, reported with its number. -/
theorem test_step_unrecognized : stops (step (ready 0xFFFF)) = some (.unrecognized 0xFFFF) := by decide
/-- T172: under SKIP the host goes on at the next word. -/
theorem test_step_skip_policy :
    after (step ((ready 0x5001).withQueued [⟨0, keysOf [], 0, 0, .skip⟩])) (fun t => t.pc) = some 0x202 := by decide
/-- T20: the snapshot is latched in the state an unrecognized word returns. -/
theorem test_report_latches_keypad :
    (stepReport ((ready 0x5001).withQueued [inputOf [4] 0 0])).map (fun p => (outcomeCode p.1, p.2.key 4, p.2.pc)) =
      some (2, true, 0x200) := by decide
/-- P6: two ticks before a step bring DT from 5 to 3. -/
theorem test_step_ticks :
    after (step (((ready 0xF107).setDt 5).withQueued [⟨2, keysOf [], 0, 0, .halt⟩])) (fun t => (t.dt, t.reg 1)) =
      some (3, 3) := by decide
/-- T171: five ticks bring 3 to 0 and no further. -/
theorem test_ticks_saturate : (ticks 5 (State.reset.setDt 3)).dt = 0 := by decide

/-! ### Flow control -/

/-- T30. -/
theorem test_jump : after (step (ready 0x1345)) (fun t => t.pc) = some 0x345 := by decide
/-- T33: no wrap at 12 bits. -/
theorem test_jumpPlusV0 : after (step (regs (ready 0xBFFF) [(0, 0xFF)])) (fun t => t.pc) = some 0x10FE := by decide
/-- T34. -/
theorem test_call : after (step (ready 0x2300)) (fun t => (t.pc, t.sp, t.stack[0])) = some (0x300, 1, 0x200) := by decide
/-- T37. -/
theorem test_call_overflows : stops (step { ready 0x2300 with sp := 16 }) = some .stackOverflow := by decide
/-- T35: the alternative link. -/
theorem test_callWith_afterCall :
    after (callWith .afterCall 0x300 (ready 0x2300)) (fun t => (t.pc, t.sp, t.stack[0])) = some (0x300, 1, 0x202) := by
  decide
/-- T39. -/
theorem test_return :
    after (step { ready 0x00EE with sp := 16, stack := Vector.ofFn fun k => 0x202 + 2 * BitVec.ofNat 16 k.val })
      (fun t => (t.pc, t.sp)) = some (0x220, 15) := by decide
/-- W9. -/
theorem test_return_underflows : stops (step (ready 0x00EE)) = some .stackUnderflow := by decide

/-! ### Skips -/

/-- T50, T51. -/
theorem test_skipIfRegValEqual :
    after (step (regs (ready 0x3A5C) [(0xA, 0x5C)])) (fun t => t.pc) = some 0x204 ∧
    after (step (regs (ready 0x3A5C) [(0xA, 0x5D)])) (fun t => t.pc) = some 0x202 := by decide
/-- T52, T53. -/
theorem test_skipIfRegValNotEqual :
    after (step (ready 0x4A5C)) (fun t => t.pc) = some 0x204 ∧ after (step (ready 0x4A00)) (fun t => t.pc) = some 0x202 := by
  decide
/-- T54, T55. -/
theorem test_skipIfRegRegEqual :
    after (step (regs (ready 0x5330) [(3, 0x77)])) (fun t => t.pc) = some 0x204 ∧
    after (step (regs (ready 0x5120) [(1, 1), (2, 2)])) (fun t => t.pc) = some 0x202 := by decide
/-- T56, T57. -/
theorem test_skipIfRegRegNotEqual :
    after (step (regs (ready 0x9120) [(1, 1), (2, 2)])) (fun t => t.pc) = some 0x204 ∧
    after (step (ready 0x9330)) (fun t => t.pc) = some 0x202 := by decide
/-- T58, T59. -/
theorem test_skipIfKeyPressed :
    after (step ((regs (ready 0xE59E) [(5, 0xC)]).withQueued [inputOf [0xC] 0 0])) (fun t => t.pc) = some 0x204 ∧
    after (step ((regs (ready 0xE59E) [(5, 0xC)]).withQueued [inputOf [0xB] 0 0])) (fun t => t.pc) = some 0x202 := by
  decide
/-- T62. -/
theorem test_skipIfKeyPressed_faults :
    stops (step ((regs (ready 0xE59E) [(5, 0x10)]).withQueued [inputOf [0] 0 0])) = some (.keyIndexFault 0x10) := by decide
/-- T60, T61. -/
theorem test_skipIfKeyNotPressed :
    after (step (regs (ready 0xE5A1) [(5, 0xC)])) (fun t => t.pc) = some 0x204 ∧
    after (step ((regs (ready 0xE5A1) [(5, 0xC)]).withQueued [inputOf [0xC] 0 0])) (fun t => t.pc) = some 0x202 := by decide
/-- T63. -/
theorem test_skipIfKeyNotPressed_faults :
    stops (step (regs (ready 0xE5A1) [(5, 0xFF)])) = some (.keyIndexFault 0xFF) := by decide

/-! ### Register loads, timers, key wait -/

/-- T71. -/
theorem test_loadValToReg : after (step (ready 0x6F01)) (fun t => (t.reg VF, t.pc)) = some (1, 0x202) := by decide
/-- T72. -/
theorem test_loadRegToReg : after (step (regs (ready 0x8120) [(2, 0x42)])) (fun t => t.reg 1) = some 0x42 := by decide
/-- T73. -/
theorem test_loadDelayTimerToReg : after (step ((ready 0xF307).setDt 0x3C)) (fun t => t.reg 3) = some 0x3C := by decide
/-- T74. -/
theorem test_loadRegToDelayTimer : after (step (regs (ready 0xF315) [(3, 0x3C)])) (fun t => t.dt) = some 0x3C := by decide
/-- T75; the sound is on while ST > 0. -/
theorem test_loadRegToSoundTimer :
    after (step (regs (ready 0xF318) [(3, 1)])) (fun t => (t.st, soundOn t)) = some (1, true) := by decide
/-- T76. -/
theorem test_loadKeyToReg_awaits :
    (stepReport (ready 0xF40A)).map (fun p => (p.1, p.2.pc)) = some (.awaitInput, 0x200) ∧
    after (step (ready 0xF40A)) (fun t => t.pc) = some 0x200 := by decide
/-- T78: keys 3 and 7 pressed; the rules allow either. -/
theorem test_loadKeyToReg_either :
    after (step ((ready 0xF40A).withQueued [inputOf [3, 7] 0 0])) (fun t => (t.reg 4, t.pc)) = some (3, 0x202) ∧
    after (step ((ready 0xF40A).withQueued [inputOf [3, 7] 0 7])) (fun t => (t.reg 4, t.pc)) = some (7, 0x202) := by decide

/-! ### Index register and memory -/

/-- T90. -/
theorem test_loadValToI : after (step (ready 0xA123)) (fun t => t.i) = some 0x0123 := by decide
/-- T93: no mask. -/
theorem test_loadSpriteLocationToI : after (step (regs (ready 0xF229) [(2, 0xFF)])) (fun t => t.i) = some 0x04FB := by decide
/-- T96: the last fitting `I`. -/
theorem test_loadRegBcdToMem :
    after (step (bytes (regs ((ready 0xF033).setI 0xFFD) [(0, 7)]) 0xFFD [0xEE, 0xEE, 0xEE]))
      (fun t => t.mem.readBytes 0xFFD 3) = some [0, 0, 7] := by decide
/-- T97, T98. -/
theorem test_loadRegBcdToMem_faults :
    stops (step ((ready 0xF033).setI 0xFFE)) = some (.addressFault 0x1000) ∧
    stops (step ((ready 0xF033).setI 0x2000)) = some (.addressFault 0x2000) := by decide
/-- The example of spec/44_index_memory.md R234. -/
theorem test_loadRegsToMem :
    after (step (regs ((ready 0xF255).setI 0x400) [(0, 1), (1, 2), (2, 3), (3, 4)]))
      (fun t => (t.mem.readBytes 0x400 4, t.i)) = some ([1, 2, 3, 0], 0x400) := by decide
/-- T101. -/
theorem test_loadRegsToMem_faults : stops (step ((ready 0xFF55).setI 0xFF1)) = some (.addressFault 0x1000) := by decide
/-- T102. -/
theorem test_loadMemToRegs :
    after (step (bytes (regs ((ready 0xF265).setI 0x300) [(3, 0x33)]) 0x300 [1, 2, 3, 4]))
      (fun t => [t.reg 0, t.reg 1, t.reg 2, t.reg 3]) = some [1, 2, 3, 0x33] := by decide
/-- T106: 16-bit wrap-around. -/
theorem test_addRegToI : after (step (regs ((ready 0xF51E).setI 0xFFFF) [(5, 2)])) (fun t => t.i) = some 1 := by decide
/-- T105: past 0xFFF, no flag. -/
theorem test_addRegToI_no_flag :
    after (step (regs ((ready 0xF51E).setI 0xFFF) [(5, 1)])) (fun t => (t.i, t.reg VF)) = some (0x1000, 0) := by decide

/-! ### ALU -/

/-- T120. -/
theorem test_addValToReg :
    after (step (regs (ready 0x71FF) [(1, 2), (VF, 0x55)])) (fun t => (t.reg 1, t.reg VF)) = some (1, 0x55) := by decide
/-- T121. -/
theorem test_orRegReg :
    after (step (regs (ready 0x8121) [(1, 0xF0), (2, 0x0F), (VF, 0x55)])) (fun t => (t.reg 1, t.reg VF)) =
      some (0xFF, 0x55) := by decide
/-- T122. -/
theorem test_andRegReg : after (step (regs (ready 0x8122) [(1, 0xF3), (2, 0x3F)])) (fun t => t.reg 1) = some 0x33 := by decide
/-- T123. -/
theorem test_xorRegReg : after (step (regs (ready 0x8113) [(1, 0xA5)])) (fun t => t.reg 1) = some 0 := by decide
/-- W2, T127. -/
theorem test_addRegToReg :
    after (step (regs (ready 0x8124) [(1, 0xFF), (2, 1)])) (fun t => (t.reg 1, t.reg VF, t.pc)) = some (0, 1, 0x202) ∧
    after (step (regs (ready 0x8F14) [(VF, 0xFF), (1, 1)])) (fun t => t.reg VF) = some 1 := by decide
/-- W3, T130. -/
theorem test_subRegFromReg :
    after (step (regs (ready 0x8125) [(1, 5), (2, 0xA)])) (fun t => (t.reg 1, t.reg VF)) = some (0xFB, 0) ∧
    after (step (regs (ready 0x8F15) [(VF, 0x10), (1, 0x20)])) (fun t => t.reg VF) = some 0 := by decide
/-- T131, T132. -/
theorem test_subnRegFromReg :
    after (step (regs (ready 0x8127) [(1, 3), (2, 0xA)])) (fun t => (t.reg 1, t.reg VF)) = some (7, 1) ∧
    after (step (regs (ready 0x8127) [(1, 0xA), (2, 5)])) (fun t => (t.reg 1, t.reg VF)) = some (0xFB, 0) := by decide
/-- T133, T135. -/
theorem test_shiftRightReg :
    after (step (regs (ready 0x8126) [(1, 3), (2, 0xFF)])) (fun t => (t.reg 1, t.reg VF)) = some (1, 1) ∧
    after (step (regs (ready 0x8F06) [(VF, 2)])) (fun t => t.reg VF) = some 0 := by decide
/-- T136, T137. -/
theorem test_shiftLeftReg :
    after (step (regs (ready 0x812E) [(1, 0x81)])) (fun t => (t.reg 1, t.reg VF)) = some (2, 1) ∧
    after (step (regs (ready 0x8F0E) [(VF, 0x40)])) (fun t => t.reg VF) = some 0 := by decide
/-- T138. -/
theorem test_randomAndValToReg :
    after (step ((ready 0xC30F).withQueued [inputOf [] 0xAB 0])) (fun t => t.reg 3) = some 0x0B := by decide

/-! ### Display and system -/

/-- T1: the word 0x00E0 clears, and is no SysCall. -/
theorem test_clearScreen :
    after (step (pixels (ready 0x00E0) [(0, 0), (31, 63)])) (fun t => (t.display.pixel (31, 63), t.pc)) =
      some (false, 0x202) := by decide
/-- T153: a wrap at both edges. -/
theorem test_drawSprite_wraps :
    after (step (bytes (regs ((ready 0xD122).setI 0x300) [(1, 0x3C), (2, 0x1E)]) 0x300 [0xFF, 0x80]))
      (fun t => ([(30, 60), (30, 63), (30, 0), (30, 3), (31, 60), (30, 4), (30, 59), (31, 61)].map t.display.pixel,
        t.reg VF)) = some ([true, true, true, true, true, false, false, false], 0) := by decide
/-- T155, T156: a collision, its flag last. -/
theorem test_drawSprite_collides :
    after (step (pixels (bytes ((ready 0xD121).setI 0x300) 0x300 [0xC0]) [(0, 1)]))
      (fun t => (t.display.pixel (0, 0), t.display.pixel (0, 1), t.reg VF)) = some (true, false, 1) ∧
    after (step (pixels (bytes ((ready 0xDF01).setI 0x300) 0x300 [0x80]) [(0, 0)]))
      (fun t => (t.display.pixel (0, 0), t.reg VF)) = some (false, 1) := by decide
/-- T158. -/
theorem test_sysCall : after (step ((ready 0x0123).setI 0x123)) (fun t => (t.i, t.pc)) = some (0x123, 0x202) := by decide

/-! ### The loader (W7, on a short image) -/

theorem test_boot : ((boot [0x60, 0x05]).mem.readBytes 0x200 3, (boot [0x60, 0x05]).pc) = ([0x60, 0x05, 0], 0x200) := by
  decide

/-! ### The font's layout -/

/-- The pixels of the customary glyphs (spec/93_implementation_defined.md G2): 4 pixels a row, the leftmost in bit 3. -/
def customaryRows : Vector (Vector Nibble 5) 16 :=
  #v[#v[0xF, 9, 9, 9, 0xF], #v[2, 6, 2, 2, 7], #v[0xF, 1, 0xF, 8, 0xF], #v[0xF, 1, 0xF, 1, 0xF],
     #v[9, 9, 0xF, 1, 1], #v[0xF, 8, 0xF, 1, 0xF], #v[0xF, 8, 0xF, 9, 0xF], #v[0xF, 1, 2, 4, 4],
     #v[0xF, 9, 0xF, 9, 0xF], #v[0xF, 9, 0xF, 1, 0xF], #v[0xF, 9, 0xF, 9, 9], #v[0xE, 9, 0xE, 9, 0xE],
     #v[0xF, 8, 8, 8, 0xF], #v[0xE, 9, 9, 9, 0xE], #v[0xF, 8, 0xF, 8, 0xF], #v[0xF, 8, 0xF, 8, 8]]

/-- G2's bytes of the digits 0, 1, 7 and F, with these pixels. -/
theorem test_customary_font :
    (fontOf customaryRows).toList.take 10 = [0xF0, 0x90, 0x90, 0x90, 0xF0, 0x20, 0x60, 0x20, 0x20, 0x70] ∧
    ((fontOf customaryRows).toList.drop 35).take 5 = [0xF0, 0x10, 0x20, 0x40, 0x40] ∧
    (fontOf customaryRows).toList.drop 75 = [0xF0, 0x80, 0xF0, 0x80, 0x80] := by decide

/-! ### Witnesses: states and operands that meet the hypotheses of the statements, each clause at a boundary -/

theorem witness_DecodeInvertsEncode :
    (Instr.sysCall 0x0E1).wellFormed = true ∧ (Instr.drawSprite 15 15 15).wellFormed = true := by decide

theorem witness_EncodeInvertsDecode : decodeWord 0xFF65 = .instr (.loadMemToRegs 15) := by decide

/-- A word that rows 1 and 3 match, one that rows 2 and 3 match, and a SysCall field beside the two. -/
theorem witness_DecoderFollowsMatchRule :
    (∃ w : Word, (⟨"ClearScreen", 0xFFFF, 0x00E0⟩ : OpcodeRow).matchesWord w = true ∧
      (⟨"SysCall", 0xF000, 0x0000⟩ : OpcodeRow).matchesWord w = true) ∧
    (∃ w : Word, (⟨"Return", 0xFFFF, 0x00EE⟩ : OpcodeRow).matchesWord w = true ∧
      (⟨"SysCall", 0xF000, 0x0000⟩ : OpcodeRow).matchesWord w = true) ∧
    (0x0EF : Addr12) ≠ 0x0E0 ∧ (0x0EF : Addr12) ≠ 0x0EE := by
  exact ⟨⟨0x00E0, by decide⟩, ⟨0x00EE, by decide⟩, by decide, by decide⟩

theorem witness_StepKeepsMemoryCanonical :
    ((ready 0xF033).setI 0xFFD).mem.wf = true ∧
    (after (step ((ready 0xF033).setI 0xFFD)) fun t => t.pc) = some 0x202 := by decide

/-- The largest pc a jump reaches, and a step that answers a next state from the last word of memory. -/
theorem witness_StepKeepsPcBounded :
    PcBounded ((ready 0xBFFF).setReg 0 0xFF) ∧
    (after (step (regs (ready 0xBFFF) [(0, 0xFF)])) fun t => t.pc.toNat) = some 0x10FE := by
  exact ⟨⟨by decide, by decide⟩, by decide⟩

theorem witness_StepRunsDecodedInstruction :
    (bytes ((ready 0).setPc 0xFFE) 0xFFE [0x60, 0x42]).pc.toNat + 2 ≤ 0x1000 ∧
    decode ((bytes ((ready 0).setPc 0xFFE) 0xFFE [0x60, 0x42]).mem.read 0xFFE)
      ((bytes ((ready 0).setPc 0xFFE) 0xFFE [0x60, 0x42]).mem.read 0xFFF) = .instr (.loadValToReg 0 0x42) := by decide

theorem witness_StepBeginsWithHostInputs : (ready 0).host.queued = inputOf [] 0 0 :: [] := rfl

theorem witness_FetchIsBigEndianAndBounded :
    ((ready 0).setPc 0xFFE).pc.toNat ≤ 0xFFE ∧ ((ready 0).setPc 0xFFF).pc.toNat = 0xFFF ∧
    0x1000 ≤ ((ready 0).setPc 0x1000).pc.toNat := by decide

theorem witness_UnrecognizedIsReportedUnchanged :
    (ready 0x5001).pc.toNat + 2 ≤ 0x1000 ∧
    decode ((ready 0x5001).mem.read 0x200) ((ready 0x5001).mem.read 0x201) = .unrecognized 0x5001 ∧
    (nextInput (ready 0x5001)).onUnrecognized = .halt ∧
    (nextInput ((ready 0x5001).withQueued [⟨0, keysOf [], 0, 0, .skip⟩])).onUnrecognized = .skip := by decide

theorem witness_FailingStepReturnsStartState :
    stepReport (ready 0x00EE) = some (.stackUnderflow, beginStep (ready 0x00EE)) ∧
    (StepOutcome.stackUnderflow ≠ .ok) := by exact ⟨rfl, by decide⟩

theorem witness_FatalOutcomeRepeats :
    stepReport (ready 0x00EE) = some (.stackUnderflow, beginStep (ready 0x00EE)) ∧
    outcomeFatal .stackUnderflow = true := by exact ⟨rfl, rfl⟩

/-- One failing execution for each of the four faults. -/
theorem witness_FaultsHaveTheirCauses :
    exec (.call 0x300) { ready 0 with sp := 16 } = .fault .stackOverflow ∧
    exec .ret (ready 0) = .fault .stackUnderflow ∧
    exec (.loadRegBcdToMem 0) ((ready 0).setI 0xFFE) = .fault (.addressFault 0x1000) ∧
    exec (.loadRegsToMem 1) ((ready 0).setI 0xFFF) = .fault (.addressFault 0x1000) ∧
    exec (.drawSprite 0 0 1) ((ready 0).setI 0x1000) = .fault (.addressFault 0x1000) ∧
    exec (.skipIfKeyPressed 0) ((ready 0).setReg 0 16) = .fault (.keyIndexFault 16) := by
  exact ⟨rfl, rfl, rfl, rfl, rfl, rfl⟩

theorem witness_RegularInstructionsAdvance :
    exec (.sysCall 0x123) (ready 0) = .next (ready 0).advance ∧ (Instr.sysCall 0x123).isFlowControl = false ∧
    awaitsInput (.sysCall 0x123) (ready 0) = false := by exact ⟨rfl, rfl, rfl⟩

theorem witness_OnlyDestinationRegistersChange :
    exec (.loadValToReg 3 7) (ready 0) = .next ((ready 0).setReg 3 7).advance ∧
    mayWriteReg (.loadValToReg 3 7) VF = false := by exact ⟨rfl, by decide⟩

/-- Next states that differ in `I`, in the stack and `SP`, in a timer. -/
theorem witness_OnlyTheseWriteSpecialState :
    (after (exec (.loadValToI 0x123) (ready 0)) fun t => decide (t.i ≠ (ready 0).i)) = some true ∧
    (after (exec (.call 0x300) (ready 0)) fun t => decide (t.sp ≠ (ready 0).sp ∧ t.stack ≠ (ready 0).stack)) = some true ∧
    (after (exec (.loadRegToDelayTimer 0) ((ready 0).setReg 0 9)) fun t => decide (t.dt ≠ 0)) = some true ∧
    (after (exec (.loadRegToSoundTimer 0) ((ready 0).setReg 0 9)) fun t => decide (t.st ≠ 0)) = some true := by decide

/-- Next states that differ in the display and in memory. -/
theorem witness_OnlyTheseWriteSpecialState_display_memory :
    (after (exec .clearScreen (pixels (ready 0) [(0, 0)])) fun t =>
      decide (t.display.pixel (0, 0) ≠ (pixels (ready 0) [(0, 0)]).display.pixel (0, 0))) = some true ∧
    (after (exec (.loadRegsToMem 0) (((ready 0).setI 0x300).setReg 0 9)) fun t =>
      decide (t.mem.read 0x300 ≠ (ready 0).mem.read 0x300)) = some true := by decide

theorem witness_RandomByteAndSoundTimerUnread :
    (∀ x kk, Instr.clearScreen ≠ .randomAndValToReg x kk) ∧ (∀ x, Instr.clearScreen ≠ .loadRegToSoundTimer x) := by
  exact ⟨nofun, nofun⟩

theorem witness_DelayTimerKeypadDisplayReaders :
    (∀ x, Instr.ret ≠ .loadDelayTimerToReg x) ∧ (∀ x, Instr.ret ≠ .loadRegToDelayTimer x) ∧
    (∀ x, Instr.ret ≠ .skipIfKeyPressed x) ∧ (∀ x, Instr.ret ≠ .skipIfKeyNotPressed x) ∧
    (∀ x, Instr.ret ≠ .loadKeyToReg x) ∧ (∀ x y n, Instr.ret ≠ .drawSprite x y n) ∧ Instr.ret ≠ .clearScreen := by
  exact ⟨nofun, nofun, nofun, nofun, nofun, nofun, nofun⟩

theorem witness_PlacedWordIsRunNext :
    (State.reset.setPc 0xFFE).pc.toNat ≤ 0xFFE ∧ decodeTableWord 16 0xD01F = some (.drawSprite 0 1 15) := by decide

theorem witness_StoredCodeIsFetched :
    (after (exec (.loadRegsToMem 15) ((ready 0).setI 0xFF0)) fun t => t.pc) = some 0x202 ∧
    (14 : Reg).val + 1 < 16 ∧ (14 : Reg).val + 1 ≤ (15 : Reg).val := by decide

theorem witness_CallPushesLink :
    ({ ready 0 with sp := 15 } : State).sp.val < 16 ∧ ({ ready 0 with sp := 16 } : State).sp.val = 16 := by decide

theorem witness_ReturnPopsThePc :
    0 < ({ ready 0 with sp := 1 } : State).sp.val ∧ 0 < ({ ready 0 with sp := 16 } : State).sp.val ∧
    (ready 0).sp.val = 0 := by decide

theorem witness_CallThenReturnRestores :
    (ready 0).sp.val < 16 ∧ ({ ready 0 with sp := 15 } : State).sp.val < 16 := by decide

/-- The two jumps from whose targets the next step faults: the lowest such target, and the highest. -/
theorem witness_JumpsSetThePc :
    (after (exec (.jump 0xFFF) (ready 0)) fun t => t.pc.toNat) = some 0xFFF ∧
    (after (exec (.jumpPlusV0 0xFFF) ((ready 0).setReg 0 0xFF)) fun t => t.pc.toNat) = some 0x10FE := by decide

theorem witness_KeySkips :
    (((ready 0).setReg 5 15).reg 5).toNat < 16 ∧ 15 < (((ready 0).setReg 5 16).reg 5).toNat := by decide

theorem witness_KeyWaitTakesAPressedKey :
    (∀ k : Reg, (ready 0).key k = false) ∧
    (∃ k : Reg, ({ ready 0 with keypad := keysOf [15] } : State).key k = true) ∧
    ({ ready 0 with keypad := keysOf [3, 7], host := ⟨0, 7, [], 0⟩ } : State).key 7 = true ∧
    ({ ready 0 with keypad := keysOf [3, 7], host := ⟨0, 7, [], 0⟩ } : State).host.pick = 7 := by
  exact ⟨by decide, ⟨15, by decide⟩, by decide, rfl⟩

theorem witness_BcdStoresThreeDigits :
    ((ready 0).setI 0xFFD).i.toNat + 2 < 0x1000 ∧ 0x1000 ≤ ((ready 0).setI 0xFFE).i.toNat + 2 := by decide

theorem witness_BlockStoreCopiesRegisters :
    ((ready 0).setI 0xFF0).i.toNat + (15 : Reg).val < 0x1000 ∧ 0x1000 ≤ ((ready 0).setI 0xFF1).i.toNat + (15 : Reg).val := by
  decide

theorem witness_BlockLoadFillsRegisters :
    ((ready 0).setI 0xFFF).i.toNat + (0 : Reg).val < 0x1000 ∧ 0x1000 ≤ ((ready 0).setI 0x1000).i.toNat + (0 : Reg).val ∧
    (14 : Reg) ≤ 14 ∧ (14 : Reg) < 15 := by decide

theorem witness_BlockStoreThenLoadRestores : ((ready 0).setI 0xFF0).i.toNat + (15 : Reg).val < 0x1000 := by decide

/-- The operands of the flag-writing operations, `V[x]` apart from `VF` and `VF` itself. -/
theorem witness_AddSetsCarry_SubtractSetsNotBorrow_ShiftsSetBitShiftedOut : (14 : Reg) ≠ VF ∧ (15 : Reg) = VF := by decide

theorem witness_ClearScreenAndSysCall : (0x0E1 : Addr12) ≠ 0x0E0 ∧ (0x0E1 : Addr12) ≠ 0x0EE := by decide

/-- No byte to draw, the last sprite that fits, the first that does not. -/
theorem witness_DrawSpriteXorsCoveredPixels :
    ((0 : Nibble).toNat = 0 ∨ ((ready 0).setI 0x1000).i.toNat + (0 : Nibble).toNat ≤ 0x1000) ∧
    ((15 : Nibble).toNat = 0 ∨ ((ready 0).setI 0xFF1).i.toNat + (15 : Nibble).toNat ≤ 0x1000) ∧
    0 < (1 : Nibble).toNat ∧ 0x1000 < ((ready 0).setI 0x1000).i.toNat + (1 : Nibble).toNat := by decide

/-- A pixel that a sprite covers across both edges, lit and dark, and one that it does not cover. -/
theorem witness_DrawSpriteXorsCoveredPixels_covered :
    spriteCovers (bytes (regs ((ready 0).setI 0x300) [(1, 63), (2, 31)]) 0x300 [0x00, 0x40]) 1 2 2 0 0 ∧
    (pixels (ready 0) [(0, 0)]).display.pixel (0, 0) = true ∧ (ready 0).display.pixel (0, 0) = false ∧
    ¬ spriteCovers (ready 0) 1 2 0 0 0 := by
  refine ⟨⟨1, 1, by decide, by decide, by decide, by decide, by decide⟩, by decide, by decide, ?_⟩
  rintro ⟨k, b, hk, _⟩
  exact absurd hk (by simp)

/-- The lowest and the highest digit. -/
theorem witness_FontHoldsGlyphs :
    ((ready 0).reg 3).toNat = (0 : Fin 16).val ∧ ((regs (ready 0) [(15, 15)]).reg 15).toNat = (15 : Fin 16).val := by decide

/-- The highest digit on the font as reset leaves it, and a pixel it covers exactly where that pixel of the glyph is set. -/
theorem witness_DigitDrawIsFourByFive :
    ((State.reset.setReg 15 15).reg 15).toNat = (15 : Fin 16).val ∧
    (∀ a < 80, (State.reset.setReg 15 15).mem.read a = State.reset.mem.read a) ∧
    (((Config.glyphRows[15])[4]).getLsbD 0 = true → digitCovers 15 63 31 3 2) ∧ ¬ digitCovers 0 0 0 5 0 := by
  refine ⟨by decide, fun _ _ => rfl, fun h => ⟨4, 3, by decide, by decide, h⟩, ?_⟩
  rintro ⟨k, b, hr, -, -⟩
  have hr : (0 + k.val) % 32 = 5 := hr
  omega

theorem witness_DrawTwiceRestoresDisplay :
    (0 : Reg) ≠ VF ∧ (1 : Reg) ≠ VF ∧
    ((2 : Nibble).toNat = 0 ∨ ((ready 0).setI 0xFFE).i.toNat + (2 : Nibble).toNat ≤ 0x1000) ∧
    ((ready 0).setI 0xFFE).display = Display.clear := by exact ⟨by decide, by decide, by decide, rfl⟩

end Sys2Proof.Tests
end

section
/-! SUPPORT. What an instruction's next state can be, by the kind of its effect, and what a step's can, from which the
statements about single fields follow; and which parts of the state an instruction does not read. -/

namespace Sys2Proof.Machine

/-- The states that an instruction can answer from `s`, by the kind of its effect (spec/40_execute_engine.md R144, R145). The
kinds of register writes name their registers through `mayWriteReg`; the pc and the stack are given exactly, a jump's
target by its bound (spec/41_flow_control.md R170, R171). -/
inductive Effect (s : State) : Instr → State → Prop
  | nothing (nnn : Addr12) : Effect s (.sysCall nnn) s.advance
  | held (x : Reg) (nonePressed : choosePressed s.keypad s.host.pick = none) : Effect s (.loadKeyToReg x) s
  | register {i : Instr} {x : Reg} (value : Byte) (writes : mayWriteReg i x = true) : Effect s i (s.setReg x value).advance
  | registerAndFlag {i : Instr} {x : Reg} (value flag : Byte) (writes : mayWriteReg i x = true)
      (writesFlag : mayWriteReg i VF = true) : Effect s i (s.setRegFlag x value flag).advance
  | registerBlock (x : Reg) (fits : s.i.toNat + (x.val + 1) ≤ 0x1000) : Effect s (.loadMemToRegs x) (s.loadRegs x).advance
  | skip {i : Instr} (condition : Bool) (isSkip : i.isSkip = true) : Effect s i (s.skipIf condition).advance
  | jump {i : Instr} {target : Word} (isFlow : i.isFlowControl = true) (bounded : target.toNat ≤ 0x10FE) :
      Effect s i (s.setPc target)
  | call (nnn : Addr12) (room : s.sp.val < 16) : Effect s (.call nnn) { s with
      pc := addressOf nnn, sp := ⟨s.sp.val + 1, by omega⟩, stack := s.stack.set s.sp.val s.pc room }
  | ret (used : 0 < s.sp.val) : Effect s .ret { s with
      pc := s.stack[s.sp.val - 1], sp := ⟨s.sp.val - 1, by omega⟩ }
  | index {i : Instr} (address : Word)
      (writesI : (∃ a, i = .loadValToI a) ∨ (∃ x, i = .loadSpriteLocationToI x) ∨ ∃ x, i = .addRegToI x) :
      Effect s i (s.setI address).advance
  | delayTimer (x : Reg) : Effect s (.loadRegToDelayTimer x) (s.setDt (s.reg x)).advance
  | soundTimer (x : Reg) : Effect s (.loadRegToSoundTimer x) (s.setSt (s.reg x)).advance
  | clear : Effect s .clearScreen (s.setDisplay Display.clear).advance
  | draw (x y : Reg) (n : Nibble) (fits : n.toNat = 0 ∨ s.i.toNat + n.toNat ≤ 0x1000) : Effect s (.drawSprite x y n)
      ((s.setDisplay (drawPixels s.display (s.spriteOf x y n)).1).setFlag
        (collisionFlag (drawPixels s.display (s.spriteOf x y n)).2)).advance
  | store {i : Instr} (bytes : List Byte) (writesMem : (∃ x, i = .loadRegBcdToMem x) ∨ ∃ x, i = .loadRegsToMem x)
      (fits : s.i.toNat + bytes.length ≤ 0x1000) : Effect s i (s.setMem (s.mem.writeBytes s.i.toNat bytes)).advance

/-- `zext_16` keeps the number of an address field (spec/30_encoding.md R105). -/
theorem addressOf_toNat (nnn : Addr12) : (addressOf nnn).toNat = nnn.toNat := by
  simp only [addressOf, BitVec.toNat_setWidth]; omega

/-- The sum of JumpPlusV0 does not wrap (spec/41_flow_control.md R171). -/
theorem addressOf_add_toNat (nnn : Addr12) (b : Byte) :
    (addressOf nnn + zext16 b).toNat = nnn.toNat + b.toNat := by
  rw [BitVec.toNat_add, addressOf_toNat, BitVec.toNat_setWidth]; omega

/-- A guarded answer is a next state only where the guard holds. -/
theorem next_of_dite {c : Prop} [Decidable c] {u : c → State} {t : State} {f : Fault}
    (h : (if hc : c then .next (u hc) else .fault f : Result) = .next t) : ∃ hc : c, u hc = t := by
  split at h
  · exact ⟨‹c›, by injection h⟩
  · cases h

/-- Every next state is one of its instruction's effects. -/
theorem exec_next_effect {i : Instr} {s t : State} (h : exec i s = .next t) : Effect s i t := by
  cases i with
  | clearScreen => cases h; exact .clear
  | ret => obtain ⟨used, rfl⟩ := next_of_dite ((exec_ret s).symm.trans h); exact .ret used
  | sysCall nnn => cases h; exact .nothing nnn
  | jump nnn => cases h; exact .jump rfl (by rw [addressOf_toNat]; omega)
  | jumpPlusV0 nnn => cases h; exact .jump rfl (by rw [addressOf_add_toNat]; omega)
  | call nnn => obtain ⟨room, rfl⟩ := next_of_dite ((callWith_eq s .atCall nnn).symm.trans h); exact .call nnn room
  | skipIfRegValEqual | skipIfRegValNotEqual | skipIfRegRegEqual | skipIfRegRegNotEqual => cases h; exact .skip _ rfl
  | skipIfKeyPressed x => obtain ⟨-, rfl⟩ := next_of_dite ((exec_skipIfKeyPressed s x).symm.trans h); exact .skip _ rfl
  | skipIfKeyNotPressed x =>
    obtain ⟨-, rfl⟩ := next_of_dite ((exec_skipIfKeyNotPressed s x).symm.trans h); exact .skip _ rfl
  | loadValToReg x | addValToReg x | loadRegToReg x | orRegReg x | andRegReg x | xorRegReg x | randomAndValToReg x
  | loadDelayTimerToReg x => cases h; exact .register _ (beq_self_eq_true x)
  | loadKeyToReg x =>
    obtain ⟨hnone, rfl⟩ | ⟨u, hu, rfl⟩ := retireOrAwait_next.1 h
    · exact .held x (Option.map_eq_none_iff.1 hnone)
    · obtain ⟨k, -, rfl⟩ := Option.map_eq_some_iff.1 hu
      exact .register _ (beq_self_eq_true x)
  | addRegToReg | subRegFromReg | subnRegFromReg | shiftRightReg | shiftLeftReg =>
    cases h; exact .registerAndFlag _ _ (by simp [mayWriteReg]) (by simp [mayWriteReg])
  | loadMemToRegs x =>
    obtain ⟨fits, ht⟩ := withBlock_next h
    cases ht; exact .registerBlock x (by simpa [blockLength] using fits)
  | loadValToI nnn => cases h; exact .index _ (.inl ⟨nnn, rfl⟩)
  | loadSpriteLocationToI x => cases h; exact .index _ (.inr (.inl ⟨x, rfl⟩))
  | addRegToI x => cases h; exact .index _ (.inr (.inr ⟨x, rfl⟩))
  | loadRegToDelayTimer x => cases h; exact .delayTimer x
  | loadRegToSoundTimer x => cases h; exact .soundTimer x
  | drawSprite x y n =>
    obtain ⟨fits, ht⟩ := withBlock_next h
    cases ht; exact .draw x y n fits
  | loadRegBcdToMem x =>
    obtain ⟨fits, ht⟩ := withBlock_next h
    cases ht; exact .store _ (.inl ⟨x, rfl⟩) (by simpa using fits)
  | loadRegsToMem x =>
    obtain ⟨fits, ht⟩ := withBlock_next h
    cases ht; exact .store _ (.inr ⟨x, rfl⟩) (by simpa [blockLength] using fits)

/-- A step that answers a next state has fetched a whole word, and runs its instruction on `S0` or, the word unrecognized,
goes on at pc + 2 (spec/40_execute_engine.md R148, spec/60_exceptions.md R313). -/
theorem step_next {s t : State} (h : step s = .next t) : s.pc.toNat + 2 ≤ 0x1000 ∧
    ((∃ i, decode (s.mem.read s.pc.toNat) (s.mem.read (s.pc.toNat + 1)) = .instr i ∧ exec i (beginStep s) = .next t) ∨
      ∃ raw, decode (s.mem.read s.pc.toNat) (s.mem.read (s.pc.toNat + 1)) = .unrecognized raw ∧
        t = (beginStep s).advance) := by
  rw [step_eq] at h
  split at h
  · refine ⟨‹_›, ?_⟩
    split at h
    next i hd => exact .inl ⟨i, hd, h⟩
    next raw hd =>
      refine .inr ⟨raw, hd, ?_⟩
      cases hp : (nextInput s).onUnrecognized <;> rw [hp] at h <;> cases h
      rfl
  · cases h

/-! ### The bounds of the pc and the stack (spec/10_state.md R41) -/

/-- Up to the end of memory the advance does not wrap. -/
theorem advance_pc_le {s : State} {n : Nat} (h : s.pc.toNat ≤ n) (hn : n ≤ 0x1000) : s.advance.pc.toNat ≤ n + 2 := by
  rw [State.advance_pc, BitVec.toNat_add, show (2 : Word).toNat = 2 from rfl]; omega

theorem skipIf_pc_le {s : State} {n : Nat} (h : s.pc.toNat ≤ n) (hn : n ≤ 0x1000) (c : Bool) :
    (s.skipIf c).pc.toNat ≤ n + 2 := by
  cases c with
  | false => exact Nat.le_add_right_of_le h
  | true => exact advance_pc_le h hn

/-- From a fetched word's address every effect but a jump's adds at most 4 to the pc, and a jump's target is bounded by the
instruction's own fields; Return takes the pc from a slot. -/
theorem Effect.pc_le {i : Instr} {s t : State} (e : Effect s i t) (hpc : s.pc.toNat ≤ 0xFFE)
    (hstack : ∀ j : Fin 16, (s.stack[j.val]).toNat ≤ 0xFFE) : t.pc.toNat ≤ 0x10FE := by
  have hadvance {u : State} (hu : u.pc.toNat ≤ 0x1000) : u.advance.pc.toNat ≤ 0x10FE :=
    (advance_pc_le hu le_rfl).trans (by omega)
  cases e with
  | held => omega
  | skip c => exact hadvance (skipIf_pc_le hpc (by omega) c)
  | jump _ bounded => exact bounded
  | call nnn => rw [addressOf_toNat]; omega
  | ret used => exact (hstack ⟨s.sp.val - 1, by omega⟩).trans (by omega)
  | _ => exact hadvance (hpc.trans (by omega))

/-- The only slot an effect writes is Call's, with the Call's own address (spec/41_flow_control.md R172). -/
theorem Effect.stack_le {i : Instr} {s t : State} (e : Effect s i t) (hpc : s.pc.toNat ≤ 0xFFE)
    (hstack : ∀ j : Fin 16, (s.stack[j.val]).toNat ≤ 0xFFE) (j : Fin 16) : (t.stack[j.val]).toNat ≤ 0xFFE := by
  cases e with
  | call =>
    rw [Vector.getElem_set]
    split
    · exact hpc
    · exact hstack j
  | _ => exact hstack j

/-- Settles O9: only a fetched word's address, at most 0xFFE, is advanced or pushed, and a jump's target is bounded by its
fields. -/
theorem stepKeepsPcBounded : Obligations.StepKeepsPcBounded := by
  rintro s t ⟨-, hstack⟩ h
  obtain ⟨hfetch, hrun⟩ := step_next h
  have hpc : (beginStep s).pc.toNat ≤ 0xFFE := by rw [beginStep_pc]; omega
  obtain ⟨i, -, hexec⟩ | ⟨raw, -, rfl⟩ := hrun
  · have e := exec_next_effect hexec
    exact ⟨e.pc_le hpc hstack, e.stack_le hpc hstack⟩
  · exact ⟨(advance_pc_le hpc (by omega)).trans (by omega), hstack⟩

/-! ### What an instruction leaves unchanged -/

/-- Settles O20: each kind of register write names the registers it writes. -/
theorem onlyDestinationRegistersChange : Obligations.OnlyDestinationRegistersChange := by
  intro i s t h r hr
  have hne {x : Reg} (hx : mayWriteReg i x = true) : r ≠ x := fun e => by simp [e, hx] at hr
  cases exec_next_effect h with
  | register _ writes => simp [hne writes]
  | registerAndFlag _ _ writes writesFlag => simp [State.setRegFlag_reg, hne writes, hne writesFlag]
  | registerBlock x => rw [State.advance_reg, State.loadRegs_reg, if_neg (of_decide_eq_false hr)]
  | draw => simp [hne (x := VF) rfl]
  | _ => rfl

/-- Settles O21: the effects that change a field are those of the instructions named for it. -/
theorem onlyTheseWriteSpecialState : Obligations.OnlyTheseWriteSpecialState := by
  intro i s t h
  cases exec_next_effect h with
  | index _ writesI => exact ⟨fun _ => writesI, by simp⟩
  | store _ writesMem => simpa using fun _ => writesMem
  | _ => simp

/-! ### What an instruction does not read -/

/-- Values to stand in place of a timer, the keypad, the display or the random byte; a part with none stays as it is. -/
structure Override where
  dt : Option Byte := none
  st : Option Byte := none
  keypad : Option (Vector Bool 16) := none
  display : Option Display := none
  rnd : Option Byte := none

/-- The state with the values in place. -/
def Override.apply (o : Override) (s : State) : State := { s with
  dt := o.dt.getD s.dt
  st := o.st.getD s.st
  keypad := o.keypad.getD s.keypad
  display := o.display.getD s.display
  host := { s.host with rnd := o.rnd.getD s.host.rnd } }

/-- The instruction neither reads nor writes a part that is replaced (spec/10_state.md R46, R47, R49, R50;
spec/40_execute_engine.md R140). -/
def Override.avoids (o : Override) : Instr → Prop
  | .loadDelayTimerToReg _ | .loadRegToDelayTimer _ => o.dt = none
  | .loadRegToSoundTimer _ => o.st = none
  | .skipIfKeyPressed _ | .skipIfKeyNotPressed _ | .loadKeyToReg _ => o.keypad = none
  | .drawSprite _ _ _ | .clearScreen => o.display = none
  | .randomAndValToReg _ _ => o.rnd = none
  | .ret | .sysCall _ | .jump _ | .call _ | .skipIfRegValEqual _ _ | .skipIfRegValNotEqual _ _ | .skipIfRegRegEqual _ _
  | .loadValToReg _ _ | .addValToReg _ _ | .loadRegToReg _ _ | .orRegReg _ _ | .andRegReg _ _ | .xorRegReg _ _
  | .addRegToReg _ _ | .subRegFromReg _ _ | .shiftRightReg _ _ | .subnRegFromReg _ _ | .shiftLeftReg _ _
  | .skipIfRegRegNotEqual _ _ | .loadValToI _ | .jumpPlusV0 _ | .addRegToI _ | .loadSpriteLocationToI _
  | .loadRegBcdToMem _ | .loadRegsToMem _ | .loadMemToRegs _ => True

/-- What an instruction neither reads nor writes does not matter to it: it answers as without the override, and the values
stand in its next state. A guard reads no replaced part, so it splits both runs alike. -/
theorem exec_override {o : Override} {i : Instr} (h : o.avoids i) (s : State) :
    exec i (o.apply s) = mapNext o.apply (exec i s) := by
  obtain ⟨dt, st, keypad, display, rnd⟩ := o
  cases i with
  | ret => rw [exec_ret, exec_ret, apply_dite (mapNext _)]; rfl
  | call => rw [exec_call, exec_call, callWith_eq, callWith_eq, apply_dite (mapNext _)]; rfl
  | loadRegBcdToMem => rw [exec_loadRegBcdToMem, exec_loadRegBcdToMem, apply_ite (mapNext _)]; rfl
  | loadRegsToMem => rw [exec_loadRegsToMem, exec_loadRegsToMem, apply_ite (mapNext _)]; rfl
  | loadMemToRegs => rw [exec_loadMemToRegs, exec_loadMemToRegs, apply_ite (mapNext _)]; rfl
  | loadDelayTimerToReg | loadRegToDelayTimer | loadRegToSoundTimer | clearScreen | randomAndValToReg => cases h; rfl
  | drawSprite => cases h; rw [exec_drawSprite, exec_drawSprite, apply_ite (mapNext _)]; rfl
  | skipIfKeyPressed => cases h; rw [exec_skipIfKeyPressed, exec_skipIfKeyPressed, apply_dite (mapNext _)]; rfl
  | skipIfKeyNotPressed => cases h; rw [exec_skipIfKeyNotPressed, exec_skipIfKeyNotPressed, apply_dite (mapNext _)]; rfl
  | loadKeyToReg =>
    cases h
    have hchoose : choosePressed (Override.apply ⟨dt, st, none, display, rnd⟩ s).keypad
        (Override.apply ⟨dt, st, none, display, rnd⟩ s).host.pick = choosePressed s.keypad s.host.pick := rfl
    rw [exec_loadKeyToReg, exec_loadKeyToReg, hchoose]
    cases choosePressed s.keypad s.host.pick <;> rfl
  | _ => rfl

/-- Settles O23: each replacement is an override that the instructions not named for it avoid. -/
theorem delayTimerKeypadDisplayReaders : Obligations.DelayTimerKeypadDisplayReaders := by
  refine ⟨fun i s b hread hwrite => ?_, fun i s ks hpressed hnot hload => ?_, fun i s d hdraw hclear => ?_⟩
  · have h : ({ dt := some b } : Override).avoids i := by
      cases i with
      | loadDelayTimerToReg x => exact absurd rfl (hread x)
      | loadRegToDelayTimer x => exact absurd rfl (hwrite x)
      | _ => trivial
    exact exec_override h s
  · have h : ({ keypad := some ks } : Override).avoids i := by
      cases i with
      | skipIfKeyPressed x => exact absurd rfl (hpressed x)
      | skipIfKeyNotPressed x => exact absurd rfl (hnot x)
      | loadKeyToReg x => exact absurd rfl (hload x)
      | _ => trivial
    exact exec_override h s
  · have h : ({ display := some d } : Override).avoids i := by
      cases i with
      | drawSprite x y n => exact absurd rfl (hdraw x y n)
      | clearScreen => exact absurd rfl hclear
      | _ => trivial
    exact exec_override h s

end Sys2Proof.Machine
end

section
/-! SUPPORT. Memory under a step: the only writes are stores that fit, so the canonical form stays; the fetch's two bytes, and
what it gives of a word placed or stored before. -/

namespace Sys2Proof.Machine

/-! ### The canonical form -/

/-- A store is the only effect on memory, and its bytes lie inside it (spec/44_index_memory.md R233). -/
theorem Effect.mem_wf {i : Instr} {s t : State} (e : Effect s i t) (w : s.mem.wf = true) : t.mem.wf = true := by
  cases e with
  | store _ _ fits => exact Memory.writeBytes_wf fits w
  | _ => exact w

/-- Settles O8: neither the latches of a step nor a skipped word touch memory, and an instruction's effect keeps its form. -/
theorem stepKeepsMemoryCanonical : Obligations.StepKeepsMemoryCanonical := by
  intro s t w h
  obtain ⟨-, ⟨i, -, hexec⟩ | ⟨raw, -, rfl⟩⟩ := step_next h
  · exact (exec_next_effect hexec).mem_wf w
  · exact w

/-! ### The word that is run next -/

/-- Where the two bytes at the pc decode to an instruction, the step is its execution on `S0`
(spec/40_execute_engine.md R148). -/
theorem step_of_decode {s : State} {i : Instr} (hpc : s.pc.toNat + 2 ≤ 0x1000)
    (hdecode : decode (s.mem.read s.pc.toNat) (s.mem.read (s.pc.toNat + 1)) = .instr i) :
    step s = exec i (beginStep s) := by
  rw [step_eq, if_pos hpc, hdecode]

/-- A table word names an instruction exactly where its two bytes decode to it. -/
theorem decodeTableWord_eq_some {nbits w : Nat} {i : Instr} : decodeTableWord nbits w = some i ↔
    decode (Word.byteHigh (BitVec.ofNat 16 (w % 2 ^ nbits))) (Word.byteLow (BitVec.ofNat 16 (w % 2 ^ nbits))) =
      .instr i := by
  simp only [decodeTableWord]
  split <;> simp [*]

/-- Where the pc addresses a whole word, its two bytes are written there, high byte first (spec/20_memory.md R72). -/
theorem State.withFetchWord_of_fits {s : State} (nbits w : Nat) (hpc : s.pc.toNat + 2 ≤ 0x1000) :
    s.withFetchWord nbits w = s.setMem (s.mem.writeBytes s.pc.toNat
      [Word.byteHigh (BitVec.ofNat 16 (w % 2 ^ nbits)), Word.byteLow (BitVec.ofNat 16 (w % 2 ^ nbits))]) :=
  if_pos (blockFits_iff.2 (.inr hpc))

/-- Settles O11: the two bytes read back at the pc are those of the word placed. -/
theorem placedWordIsRunNext : Obligations.PlacedWordIsRunNext := by
  intro s w i hpc hw
  have hfits : s.pc.toNat + 2 ≤ 0x1000 := by omega
  rw [State.withFetchWord_of_fits 16 w hfits]
  refine step_of_decode hfits ?_
  simpa [Memory.writeBytes_read] using decodeTableWord_eq_some.1 hw

/-! ### The loader -/

/-- Settles O24: the load is one block of writes from 0x200, of the image's first 3584 bytes. -/
theorem loadImageWritesTruncatedImage : Obligations.LoadImageWritesTruncatedImage := by
  intro image s
  refine ⟨rfl, fun a => ?_⟩
  simp only [loadImage, State.setMem_mem, Memory.writeBytes_read, List.length_take, Config.memSize, Config.loadAddress,
    Nat.reduceSub, Nat.min_comm 3584]
  refine ite_congr rfl (fun hinside => ?_) fun _ => rfl
  rw [List.getD_eq_getElem?_getD, List.getElem?_take_of_lt (by omega), ← List.getD_eq_getElem?_getD]

/-! ### Stored code -/

/-- Each register of a stored block is read back at its address (spec/44_index_memory.md R234). -/
theorem writeBytes_regsUpTo_read (m : Memory) (a : Nat) (s : State) {x k : Reg} (h : k ≤ x) :
    (m.writeBytes a (s.regsUpTo x)).read (a + k.val) = s.reg k := by
  have hk : k.val ≤ x.val := h
  rw [Memory.writeBytes_read, State.regsUpTo_length, if_pos (by omega), Nat.add_sub_cancel_left, State.regsUpTo_getD s x k hk]
  rfl

/-- Settles O26: the store succeeds only with the whole block below 0x1000, so no address wraps and the two registers are
read back at theirs. -/
theorem storedCodeIsFetched : Obligations.StoredCodeIsFetched := by
  intro x s t hexec k hk hkx
  obtain ⟨fits, rfl⟩ := next_of_dite ((exec_loadRegsToMem s x).symm.trans hexec)
  have hpc : (s.i + BitVec.ofNat 16 k.val).toNat = s.i.toNat + k.val := by
    rw [BitVec.toNat_add, BitVec.toNat_ofNat]; omega
  have hlow := writeBytes_regsUpTo_read s.mem s.i.toNat s (x := x) (k := k) (Fin.le_def.2 (by omega))
  have hhigh := writeBytes_regsUpTo_read s.mem s.i.toNat s (x := x) (k := ⟨k.val + 1, hk⟩) hkx
  rw [fetchWord_eq, State.setPc_pc, hpc, if_pos (by omega)]
  simp only [State.setPc_mem, State.advance_mem, State.setMem_mem, hlow, Nat.add_assoc, hhigh]

/-! ### The bounds of the fetch -/

/-- A fetch with a byte out of memory faults with the lowest such address, and the step with it (spec/20_memory.md R75,
spec/40_execute_engine.md R141). -/
theorem fetch_out_of_memory {s : State} {a : Nat} (hpc : 0xFFF ≤ s.pc.toNat) (ha : max s.pc.toNat 0x1000 = a) :
    fetchWord s = .error a ∧ step s = .fault (.addressFault a) := by
  rw [fetchWord_eq, step_eq, if_neg (by omega), if_neg (by omega), ha]
  exact ⟨rfl, rfl⟩

/-- Settles O13: a word is its high byte times 256 plus its low byte, and of the two addresses the lowest out of memory is
0x1000 from 0xFFF and the pc itself from 0x1000 on. -/
theorem fetchIsBigEndianAndBounded : Obligations.FetchIsBigEndianAndBounded := by
  refine fun s => ⟨fun hpc => ?_, fun hpc => ?_, fun hpc => ?_⟩
  · exact ⟨_, (fetchWord_eq s).trans (if_pos (by omega)), wordOfBytes_toNat _ _⟩
  · exact fetch_out_of_memory (by omega) (by omega)
  · exact fetch_out_of_memory (by omega) (by omega)

end Sys2Proof.Machine
end

section
/-! SUPPORT. The decoder and the encoder as inverses of each other, and the words the decoder does not recognize, both read off
the decoder's branches by the leading nibble. -/

namespace Sys2Proof

/-! ### The decoder's verdict -/

theorem decodeWord_eq_instr {w : Word} {i : Instr} :
    decodeWord w = .instr i ↔ decodeNibbles w.nibble3 w.nibble2 w.nibble1 w.nibble0 = some i := by
  unfold decodeWord
  split <;> simp [*]

theorem decodeWord_eq_unrecognized {w raw : Word} : decodeWord w = .unrecognized raw ↔
    decodeNibbles w.nibble3 w.nibble2 w.nibble1 w.nibble0 = none ∧ raw = w := by
  unfold decodeWord
  split <;> simp [*, eq_comm]

/-- Decoding a word's two bytes, high byte first, is decoding the word (spec/20_memory.md R72). -/
theorem decode_bytes (w : Word) : decode w.byteHigh w.byteLow = decodeWord w := by
  rw [decode, Word.eq_bytes]

/-- The case split of the decoder: by the value of a nibble. -/
theorem Nibble.cases {motive : Nibble → Prop} (d0 : motive 0x0) (d1 : motive 0x1) (d2 : motive 0x2) (d3 : motive 0x3)
    (d4 : motive 0x4) (d5 : motive 0x5) (d6 : motive 0x6) (d7 : motive 0x7) (d8 : motive 0x8) (d9 : motive 0x9)
    (dA : motive 0xA) (dB : motive 0xB) (dC : motive 0xC) (dD : motive 0xD) (dE : motive 0xE) (dF : motive 0xF)
    (d : Nibble) : motive d := by
  obtain ⟨⟨n, hn⟩⟩ := d
  interval_cases n <;> assumption

/-! ### Decoding an encoded instruction -/

theorem wellFormed_sysCall {nnn : Addr12} :
    (Instr.sysCall nnn).wellFormed = true ↔ nnn ≠ 0x0E0#12 ∧ nnn ≠ 0x0EE#12 := by
  simp [Instr.wellFormed, sysCallFieldOk]

/-- An encoded instruction decodes to itself: the decoder puts the nibbles of each field together again, and a well-formed
SysCall is neither of the two words matched before it (spec/30_encoding.md R104, R108, R114). -/
theorem decodeWord_encode {i : Instr} (h : i.wellFormed = true) : decodeWord (encode i) = .instr i := by
  cases i with
  | clearScreen | ret => decide
  | sysCall nnn =>
    obtain ⟨hclear, hret⟩ := wellFormed_sysCall.1 h
    simp [encode, decodeWord_encodeNNN, decodeNibbles, addr_eq_nibbles, decodeSys, hclear, hret]
  | jump | call | loadValToI | jumpPlusV0 => simp [encode, decodeWord_encodeNNN, decodeNibbles, addr_eq_nibbles]
  | skipIfRegValEqual | skipIfRegValNotEqual | loadValToReg | addValToReg | randomAndValToReg =>
    simp [encode, decodeWord_encodeXKK, decodeNibbles, byte_eq_nibbles]
  | skipIfKeyPressed | skipIfKeyNotPressed | loadDelayTimerToReg | loadKeyToReg | loadRegToDelayTimer
  | loadRegToSoundTimer | addRegToI | loadSpriteLocationToI | loadRegBcdToMem | loadRegsToMem | loadMemToRegs =>
    exact decodeWord_encodeXKK _ _ _
  | skipIfRegRegEqual | loadRegToReg | orRegReg | andRegReg | xorRegReg | addRegToReg | subRegFromReg | shiftRightReg
  | subnRegFromReg | shiftLeftReg | skipIfRegRegNotEqual | drawSprite => exact decodeWord_encodeXYN _ _ _ _

/-- Settles O1: by the format of the instruction's template, and a word is its two bytes. -/
theorem decodeInvertsEncode : Obligations.DecodeInvertsEncode :=
  fun i h => ⟨decodeWord_encode h, (decode_bytes (encode i)).trans (decodeWord_encode h)⟩

/-- Settles O5: the eight words are decoded. -/
theorem sampleWordsDecode : Obligations.SampleWordsDecode := by
  refine ⟨?_, ?_, ?_, ?_, ?_, ?_, ?_, ?_⟩ <;> decide

/-! ### Encoding a decoded instruction -/

theorem encodeNNN_append (op a b c : Nibble) : encodeNNN op (a ++ b ++ c) = op ++ a ++ b ++ c := by
  rw [encodeNNN, BitVec.append_assoc', BitVec.append_assoc']; rfl

theorem encodeXKK_append (op a b c : Nibble) : encodeXKK op (regOf a) (b ++ c) = op ++ a ++ b ++ c := by
  rw [encodeXKK, fieldOf_regOf, BitVec.append_assoc']; rfl

theorem encode_decodeSys (nnn : Addr12) :
    (decodeSys nnn).wellFormed = true ∧ encode (decodeSys nnn) = encodeNNN 0x0 nnn := by
  unfold decodeSys
  split_ifs with hclear hret
  · subst hclear; decide
  · subst hret; decide
  · exact ⟨wellFormed_sysCall.2 ⟨hclear, hret⟩, rfl⟩

theorem encode_of_decodeAlu {x y : Reg} {f : Nibble} {i : Instr} (h : decodeAlu x y f = some i) :
    i.wellFormed = true ∧ encode i = encodeXYN 0x8 x y f := by
  revert h
  unfold decodeAlu
  split_ifs <;> rintro ⟨⟩ <;> subst f <;> exact ⟨rfl, rfl⟩

theorem encode_of_decodeKey {x : Reg} {f : Byte} {i : Instr} (h : decodeKey x f = some i) :
    i.wellFormed = true ∧ encode i = encodeXKK 0xE x f := by
  revert h
  unfold decodeKey
  split_ifs <;> rintro ⟨⟩ <;> subst f <;> exact ⟨rfl, rfl⟩

theorem encode_of_decodeMisc {x : Reg} {f : Byte} {i : Instr} (h : decodeMisc x f = some i) :
    i.wellFormed = true ∧ encode i = encodeXKK 0xF x f := by
  revert h
  unfold decodeMisc
  split_ifs <;> rintro ⟨⟩ <;> subst f <;> exact ⟨rfl, rfl⟩

/-- What four nibbles decode to encodes to those nibbles, by the leading one (spec/30_encoding.md R103, R104). -/
theorem encode_of_decodeNibbles {op a b c : Nibble} {i : Instr} (h : decodeNibbles op a b c = some i) :
    i.wellFormed = true ∧ encode i = op ++ a ++ b ++ c := by
  cases op using Nibble.cases with
  | d0 => cases h; rw [← encodeNNN_append]; exact encode_decodeSys _
  | d1 | d2 | dA | dB => cases h; exact ⟨rfl, encodeNNN_append _ _ _ _⟩
  | d3 | d4 | d6 | d7 | dC => cases h; exact ⟨rfl, encodeXKK_append _ _ _ _⟩
  | d5 | d9 => obtain ⟨rfl, ⟨⟩⟩ := Option.ite_none_right_eq_some.1 h; exact ⟨rfl, rfl⟩
  | d8 => exact encode_of_decodeAlu h
  | dD => cases h; exact ⟨rfl, rfl⟩
  | dE => rw [← encodeXKK_append]; exact encode_of_decodeKey h
  | dF => rw [← encodeXKK_append]; exact encode_of_decodeMisc h

/-- Settles O2: a word is its four nibbles, and each branch of the decoder encodes to the nibbles it read. -/
theorem encodeInvertsDecode : Obligations.EncodeInvertsDecode := by
  intro w i h
  rw [Word.eq_nibbles w]
  exact encode_of_decodeNibbles (decodeWord_eq_instr.1 h)

/-! ### The unrecognized words (spec/30_encoding.md R111) -/

/-- A word's low byte is its two low nibbles. -/
theorem Word.byteLow_eq_nibbles (w : Word) : w.byteLow = w.nibble1 ++ w.nibble0 :=
  (BitVec.extractLsb'_append_extractLsb'_eq_extractLsb' (start₁ := 0) (len₁ := 4) (start₂ := 4) (len₂ := 4) rfl).symm

theorem decodeAlu_eq_none {x y : Reg} {f : Nibble} :
    decodeAlu x y f = none ↔ f ∈ [0x8#4, 0x9#4, 0xA#4, 0xB#4, 0xC#4, 0xD#4, 0xF#4] := by
  cases f using Nibble.cases <;> simp [decodeAlu]

theorem decodeKey_eq_none {x : Reg} {f : Byte} : decodeKey x f = none ↔ f ∉ [0x9E#8, 0xA1#8] := by
  simp [decodeKey, ite_eq_iff]

theorem decodeMisc_eq_none {x : Reg} {f : Byte} : decodeMisc x f = none ↔
    f ∉ [0x07#8, 0x0A#8, 0x15#8, 0x18#8, 0x1E#8, 0x29#8, 0x33#8, 0x55#8, 0x65#8] := by
  simp [decodeMisc, ite_eq_iff]

/-- Settles O4: of the branches by the leading nibble only those for 5, 8, 9, E and F can answer nothing. -/
theorem unrecognizedWordsAreThese : Obligations.UnrecognizedWordsAreThese := by
  intro w
  rw [decodeWord_eq_unrecognized, Word.byteLow_eq_nibbles]
  cases w.nibble3 using Nibble.cases with
  | d8 => simpa [decodeNibbles] using decodeAlu_eq_none
  | dE => simpa [decodeNibbles] using decodeKey_eq_none
  | dF => simpa [decodeNibbles] using decodeMisc_eq_none
  | d5 | d9 => simp [decodeNibbles]
  | d0 | d1 | d2 | d3 | d4 | d6 | d7 | dA | dB | dC | dD => simp [decodeNibbles]

end Sys2Proof
end

section
/-! SUPPORT. The decoder and the decode table: each instruction fits its own row, no other row fits its word except for the two
fixed words, and no row fits an unrecognized word (spec/30_encoding.md R107 to R109). -/

namespace Sys2Proof

theorem OpcodeRow.matchesWord_iff {r : OpcodeRow} {w : Word} : r.matchesWord w = true ↔ w &&& r.mask = r.pattern :=
  beq_iff_eq

/-- A row whose template is all literal fits its pattern only. -/
theorem OpcodeRow.eq_pattern {r : OpcodeRow} {w : Word} (h : r.matchesWord w = true) (hmask : r.mask = BitVec.allOnes 16) :
    w = r.pattern := by
  rw [← OpcodeRow.matchesWord_iff.1 h, hmask, BitVec.and_allOnes]

/-- Two rows that fit one word agree on the bits that both fix. -/
theorem patterns_agree {r q : OpcodeRow} {w : Word} (hr : r.matchesWord w = true) (hq : q.matchesWord w = true) :
    r.pattern &&& q.mask = q.pattern &&& r.mask := by
  rw [← OpcodeRow.matchesWord_iff.1 hr, ← OpcodeRow.matchesWord_iff.1 hq, BitVec.and_assoc, BitVec.and_assoc,
    BitVec.and_comm r.mask]

/-- The pairs of rows that agree on the bits that both fix. -/
theorem opcodeTable_agreeing_rows : opcodeTable.Pairwise fun r q => r.pattern &&& q.mask = q.pattern &&& r.mask →
    (r = ⟨"ClearScreen", 0xFFFF, 0x00E0⟩ ∨ r = ⟨"Return", 0xFFFF, 0x00EE⟩) ∧ q.name = "SysCall" := by decide

/-- A row that fits a word is the first that fits, unless the word is one of the two fixed ones. -/
theorem firstRow_of_matches {r : OpcodeRow} {w : Word} (hr : r ∈ opcodeTable) (h : r.matchesWord w = true) :
    firstRow w = some r ∨ w = 0x00E0 ∨ w = 0x00EE := by
  have hsome : (firstRow w).isSome := List.find?_isSome.2 ⟨r, hr, h⟩
  obtain ⟨q, hq⟩ := Option.isSome_iff_exists.1 hsome
  obtain ⟨hqw, before, after, htable, hbefore⟩ := List.find?_eq_some_iff_append.1 hq
  have hrows := opcodeTable_agreeing_rows
  rw [htable] at hr hrows
  obtain hr | hr := List.mem_append.1 hr
  · simpa [h] using hbefore r hr
  obtain rfl | hr := List.mem_cons.1 hr
  · exact .inl hq
  have hagree := List.rel_of_pairwise_cons (List.pairwise_append.1 hrows).2.1 hr (patterns_agree hqw h)
  obtain ⟨rfl | rfl, -⟩ := hagree
  · exact .inr (.inl (OpcodeRow.eq_pattern hqw rfl))
  · exact .inr (.inr (OpcodeRow.eq_pattern hqw rfl))

open Laws.EncodesOwnRow in
/-- The family of `EncodesOwnRow`, for every instruction at once. -/
theorem encodesOwnRow : ∀ i : Instr, Statement i
  | .clearScreen => clearScreen
  | .ret => ret
  | .sysCall nnn => sysCall nnn
  | .jump nnn => jump nnn
  | .call nnn => call nnn
  | .skipIfRegValEqual x kk => skipIfRegValEqual x kk
  | .skipIfRegValNotEqual x kk => skipIfRegValNotEqual x kk
  | .skipIfRegRegEqual x y => skipIfRegRegEqual x y
  | .loadValToReg x kk => loadValToReg x kk
  | .addValToReg x kk => addValToReg x kk
  | .loadRegToReg x y => loadRegToReg x y
  | .orRegReg x y => orRegReg x y
  | .andRegReg x y => andRegReg x y
  | .xorRegReg x y => xorRegReg x y
  | .addRegToReg x y => addRegToReg x y
  | .subRegFromReg x y => subRegFromReg x y
  | .shiftRightReg x y => shiftRightReg x y
  | .subnRegFromReg x y => subnRegFromReg x y
  | .shiftLeftReg x y => shiftLeftReg x y
  | .skipIfRegRegNotEqual x y => skipIfRegRegNotEqual x y
  | .loadValToI nnn => loadValToI nnn
  | .jumpPlusV0 nnn => jumpPlusV0 nnn
  | .randomAndValToReg x kk => randomAndValToReg x kk
  | .drawSprite x y n => drawSprite x y n
  | .skipIfKeyPressed x => skipIfKeyPressed x
  | .skipIfKeyNotPressed x => skipIfKeyNotPressed x
  | .loadDelayTimerToReg x => loadDelayTimerToReg x
  | .loadKeyToReg x => loadKeyToReg x
  | .loadRegToDelayTimer x => loadRegToDelayTimer x
  | .loadRegToSoundTimer x => loadRegToSoundTimer x
  | .addRegToI x => addRegToI x
  | .loadSpriteLocationToI x => loadSpriteLocationToI x
  | .loadRegBcdToMem x => loadRegBcdToMem x
  | .loadRegsToMem x => loadRegsToMem x
  | .loadMemToRegs x => loadMemToRegs x

/-- The first row that fits a recognized word is its instruction's own; on the two fixed words, rows 1 and 2. -/
theorem firstRow_of_decodeWord {w : Word} {i : Instr} (h : decodeWord w = .instr i) :
    (firstRow w).map OpcodeRow.name = some i.mnemonic := by
  obtain ⟨r, hr, hname, hmatch⟩ := encodesOwnRow i
  rw [(encodeInvertsDecode w i h).2] at hmatch
  obtain hfirst | rfl | rfl := firstRow_of_matches hr hmatch
  · rw [hfirst, ← hname]; rfl
  · cases h; rfl
  · cases h; rfl

/-- A field that the mask keeps whole is the same in the word and in the pattern. -/
theorem pattern_field_eq {r : OpcodeRow} {w : Word} (h : r.matchesWord w = true) {start len : Nat}
    (hmask : r.mask.extractLsb' start len = BitVec.allOnes len) :
    r.pattern.extractLsb' start len = w.extractLsb' start len := by
  rw [← OpcodeRow.matchesWord_iff.1 h, BitVec.extractLsb'_and, hmask, BitVec.and_allOnes]

/-- The masks keep every field that tells a recognized word from an unrecognized one. -/
theorem opcodeTable_masks : ∀ r ∈ opcodeTable, r.mask.nibble3 = 0xF#4 ∧
    (r.pattern.nibble3 ∈ [0x5#4, 0x8#4, 0x9#4] → r.mask.nibble0 = 0xF#4) ∧
    (r.pattern.nibble3 ∈ [0xE#4, 0xF#4] → r.mask.byteLow = 0xFF#8) := by decide

theorem opcodeTable_patterns_recognized : ∀ r ∈ opcodeTable, decodeWord r.pattern ≠ .unrecognized r.pattern := by decide

/-- No row fits an unrecognized word: its pattern would be unrecognized for the same field. -/
theorem recognized_of_matches {r : OpcodeRow} {w : Word} (hr : r ∈ opcodeTable) (h : r.matchesWord w = true) :
    decodeWord w ≠ .unrecognized w := by
  obtain ⟨hop, hfn, hlow⟩ := opcodeTable_masks r hr
  have hop : r.pattern.nibble3 = w.nibble3 := pattern_field_eq h hop
  refine fun hw => opcodeTable_patterns_recognized r hr ((unrecognizedWordsAreThese r.pattern).2 ?_)
  have hfn (hin : w.nibble3 ∈ [0x5#4, 0x8#4, 0x9#4]) : r.pattern.nibble0 = w.nibble0 :=
    pattern_field_eq h (hfn (hop ▸ hin))
  have hlow (hin : w.nibble3 ∈ [0xE#4, 0xF#4]) : r.pattern.byteLow = w.byteLow := pattern_field_eq h (hlow (hop ▸ hin))
  rw [hop]
  obtain ⟨h5, hn⟩ | ⟨h8, hn⟩ | ⟨h9, hn⟩ | ⟨hE, hn⟩ | ⟨hF, hn⟩ := (unrecognizedWordsAreThese w).1 hw
  · exact .inl ⟨h5, by rwa [hfn (by simp [h5])]⟩
  · exact .inr (.inl ⟨h8, by rwa [hfn (by simp [h8])]⟩)
  · exact .inr (.inr (.inl ⟨h9, by rwa [hfn (by simp [h9])]⟩))
  · exact .inr (.inr (.inr (.inl ⟨hE, by rwa [hlow (by simp [hE])]⟩)))
  · exact .inr (.inr (.inr (.inr ⟨hF, by rwa [hlow (by simp [hF])]⟩)))

theorem firstRow_of_unrecognized {w : Word} (h : decodeWord w = .unrecognized w) : firstRow w = none :=
  List.find?_eq_none.2 fun _ hr hmatch => recognized_of_matches hr hmatch h

/-- Settles O3: a recognized word's first row is its instruction's own, an unrecognized word has none, and rows that fit one
word agree on the bits that both fix. -/
theorem decoderFollowsMatchRule : Obligations.DecoderFollowsMatchRule := by
  refine ⟨fun w => ?_, ?_, by decide, by decide, fun nnn hclear hret => ?_⟩
  · split
    next i h => exact firstRow_of_decodeWord h
    next raw h =>
      obtain rfl := (decodeWord_eq_unrecognized.1 h).2
      exact ⟨firstRow_of_unrecognized h, rfl⟩
  · apply opcodeTable_agreeing_rows.imp
    rintro r q hagree ⟨w, hr, hq⟩
    obtain ⟨rfl | rfl, hname⟩ := hagree (patterns_agree hr hq)
    · exact ⟨.inl rfl, hname⟩
    · exact ⟨.inr rfl, hname⟩
  · exact decodeWord_encode (i := .sysCall nnn) (wellFormed_sysCall.2 ⟨hclear, hret⟩)

end Sys2Proof
end

section
/-! SUPPORT. The execute engine: how a step begins, what it runs or reports of the two bytes at the pc, and what an execution
does to the pc and to the state it fails on. -/

namespace Sys2Proof.Machine

/-! ### The inputs of a step -/

/-- The ticks of a timer, each one down, stop at zero (spec/60_exceptions.md R320). -/
theorem tickTimerBy_toNat (n : Nat) (b : Byte) : (tickTimerBy n b).toNat = b.toNat - n := by
  induction n generalizing b with
  | zero => rfl
  | succ n ih => rw [tickTimerBy, ih, tickTimer_toNat]; omega

/-- The input taken is the first one queued (log 2). -/
theorem nextInput_of_queued {s : State} {h : Config.HostInput} {q : List Config.HostInput} (hq : s.host.queued = h :: q) :
    nextInput s = h := by
  rw [nextInput, hq]

@[simp] theorem beginStep_queued (s : State) : (beginStep s).host.queued = s.host.queued.tail := rfl

/-- Settles O12: the latches are those of the input, and its ticks saturate on each timer. -/
theorem stepBeginsWithHostInputs : Obligations.StepBeginsWithHostInputs := by
  refine fun s => ⟨beginStep_keypad s, beginStep_rnd s, tickTimerBy_toNat _ _, tickTimerBy_toNat _ _, fun h q hq => ?_⟩
  exact ⟨nextInput_of_queued hq, by rw [beginStep_queued, hq, List.tail_cons]⟩

/-! ### The word at the pc -/

/-- Settles O10: the bytes at the pc decide what is run, and taking the inputs replaces no other field. -/
theorem stepRunsDecodedInstruction : Obligations.StepRunsDecodedInstruction :=
  fun s _ hpc hdecode => ⟨step_of_decode hpc hdecode, rfl, beginStep_rnd s⟩

/-- Two bytes at the pc that no template fits are reported on `S0` (spec/40_execute_engine.md R142). -/
theorem stepReport_of_unrecognized {s : State} {raw : Word} (hpc : s.pc.toNat + 2 ≤ 0x1000)
    (hdecode : decode (s.mem.read s.pc.toNat) (s.mem.read (s.pc.toNat + 1)) = .unrecognized raw) :
    stepReport s = some (.unrecognized raw, beginStep s) := by
  rw [stepReport_eq, if_pos hpc, hdecode]

/-- The run goes on from them as the host's policy says (spec/60_exceptions.md R313). -/
theorem step_of_unrecognized {s : State} {raw : Word} (hpc : s.pc.toNat + 2 ≤ 0x1000)
    (hdecode : decode (s.mem.read s.pc.toNat) (s.mem.read (s.pc.toNat + 1)) = .unrecognized raw) :
    step s = afterUnrecognized (nextInput s).onUnrecognized raw (beginStep s) := by
  rw [step_eq, if_pos hpc, hdecode]

/-- Settles O14: `S0`, whatever is queued, has the same two bytes at the same pc, so the report is made again from it. -/
theorem unrecognizedIsReportedUnchanged : Obligations.UnrecognizedIsReportedUnchanged := by
  intro s raw hpc hdecode
  refine ⟨decode_unrecognized hdecode, stepReport_of_unrecognized hpc hdecode, fun q => ?_, fun hhalt => ?_, fun hskip => ?_⟩
  · exact ⟨_, stepReport_of_unrecognized (s := (beginStep s).withQueued q) hpc hdecode⟩
  · rw [step_of_unrecognized hpc hdecode, hhalt]; rfl
  · rw [step_of_unrecognized hpc hdecode, hskip]; rfl

/-! ### Failing and held executions -/

/-- An instruction is held exactly where it is LoadKeyToReg with no key pressed (spec/60_exceptions.md R316). -/
theorem awaitsInput_iff {i : Instr} {s : State} :
    awaitsInput i s = true ↔ (∃ x, i = .loadKeyToReg x) ∧ choosePressed s.keypad s.host.pick = none := by
  cases i <;> simp [awaitsInput]

/-- A held instruction leaves the state it is held on (spec/43_register_loads.md R216). -/
theorem exec_of_awaitsInput {i : Instr} {s : State} (h : awaitsInput i s = true) : exec i s = .next s := by
  obtain ⟨⟨x, rfl⟩, hnone⟩ := awaitsInput_iff.1 h
  rw [exec_loadKeyToReg, hnone]

/-- An execution that reports anything but `Ok` returns the state it began with (spec/40_execute_engine.md R147). -/
theorem reportExec_not_ok {i : Instr} {s t : State} {o : StepOutcome} (h : reportExec i s = some (o, t)) (ho : o ≠ .ok) :
    t = s := by
  unfold reportExec at h
  split at h
  next u hnext =>
    by_cases hheld : awaitsInput i s = true
    · rw [exec_of_awaitsInput hheld] at hnext
      cases hnext; cases h; rfl
    · rw [if_neg hheld] at h
      cases h; exact absurd rfl ho
  next => cases h; rfl
  next => cases h

/-- Settles O15: a fetch that faults and an unrecognized word execute nothing, and an execution that is not `Ok` failed or was
held. -/
theorem failingStepReturnsStartState : Obligations.FailingStepReturnsStartState := by
  intro s t o h ho
  rw [stepReport_eq] at h
  split at h
  · split at h
    next i hdecode => exact reportExec_not_ok h ho
    next raw hdecode => cases h; rfl
  · cases h; rfl

/-! ### The advance -/

/-- Settles O19: every effect but a jump's, Call's, Return's and the hold ends with the advance, a skip's after its own. -/
theorem regularInstructionsAdvance : Obligations.RegularInstructionsAdvance := by
  intro i s t h hflow hheld
  cases exec_next_effect h with
  | held x nonePressed => simp [awaitsInput_iff.2 ⟨⟨x, rfl⟩, nonePressed⟩] at hheld
  | jump isFlow => simp [isFlow] at hflow
  | call | ret => cases hflow
  | skip condition isSkip =>
    cases condition with
    | false => exact .inl rfl
    | true => exact .inr ⟨isSkip, BitVec.add_assoc s.pc 2 2⟩
  | _ => exact .inl rfl

/-! ### What no instruction, or only one, reads -/

/-- Settles O22: the random byte and `ST` are each an override that the instructions not named for it avoid. -/
theorem randomByteAndSoundTimerUnread : Obligations.RandomByteAndSoundTimerUnread := by
  refine ⟨fun i s b hrandom => ?_, fun i s b hsound => ?_⟩
  · have h : ({ rnd := some b } : Override).avoids i := by
      cases i with
      | randomAndValToReg x kk => exact absurd rfl (hrandom x kk)
      | _ => trivial
    exact exec_override h s
  · have h : ({ st := some b } : Override).avoids i := by
      cases i with
      | loadRegToSoundTimer x => exact absurd rfl (hsound x)
      | _ => trivial
    exact exec_override h s

end Sys2Proof.Machine
end

section
/-! SUPPORT. Flow control: what a jump, a call under either link and a return answer, and a call undone by the return after
it. -/

namespace Sys2Proof.Machine

/-! ### The jumps -/

/-- An instruction that only sets the pc, and what the next step does where its target addresses no whole word
(spec/41_flow_control.md R170, R171, spec/20_memory.md R75). -/
theorem exec_setPc_answers {i : Instr} {s : State} {target : Word} {n : Nat} (hexec : exec i s = .next (s.setPc target))
    (htarget : target.toNat = n) :
    ∃ t, exec i s = .next t ∧ t.pc.toNat = n ∧ OnlyPc s t ∧
      (0xFFF ≤ t.pc.toNat → ∃ a, step t = .fault (.addressFault a)) :=
  ⟨s.setPc target, hexec, htarget, ⟨fun _ => rfl, rfl⟩, fun hpc => ⟨_, (fetch_out_of_memory hpc rfl).2⟩⟩

/-- Settles O27: both jumps only set the pc, and neither target wraps. -/
theorem jumpsSetThePc : Obligations.JumpsSetThePc := fun nnn s =>
  ⟨decodeWord_encode (i := .jump nnn) rfl, decodeWord_encode (i := .jumpPlusV0 nnn) rfl,
    exec_setPc_answers (exec_jump s nnn) (addressOf_toNat nnn),
    exec_setPc_answers (exec_jumpPlusV0 s nnn) (addressOf_add_toNat nnn (s.reg 0))⟩

/-! ### Call -/

/-- With room on the stack a call writes its link to the slot at `SP`, and nothing but the pc and the stack changes
(spec/41_flow_control.md R172). -/
theorem callWith_of_room (p : Config.ReturnLink) (nnn : Addr12) {s : State} (h : s.sp.val < 16) :
    ∃ t, callWith p nnn s = .next t ∧ t.pc = addressOf nnn ∧ t.sp.val = s.sp.val + 1 ∧
      t.stack[s.sp.val] = linkOf p s.pc ∧ (∀ j : Fin 16, j.val ≠ s.sp.val → t.stack[j.val] = s.stack[j.val]) ∧
      t = { s with pc := t.pc, sp := t.sp, stack := t.stack } :=
  ⟨_, (callWith_eq s p nnn).trans (dif_pos h), rfl, rfl, Vector.getElem_set_self h,
    fun j hj => Vector.getElem_set_ne h j.isLt hj.symm, rfl⟩

theorem callWith_of_full (p : Config.ReturnLink) (nnn : Addr12) {s : State} (h : s.sp.val = 16) :
    callWith p nnn s = .fault .stackOverflow :=
  (callWith_eq s p nnn).trans (dif_neg (by omega))

/-- Settles O28: both links by the one call, whose frame leaves memory as it was. -/
theorem callPushesLink : Obligations.CallPushesLink := by
  refine fun nnn s => ⟨decodeWord_encode (i := .call nnn) rfl, fun h => ?_, fun h => callWith_of_room .afterCall nnn h,
    fun h => ⟨callWith_of_full .atCall nnn h, callWith_of_full .afterCall nnn h⟩⟩
  obtain ⟨t, hexec, hpc, hsp, hlink, hslots, hframe⟩ := callWith_of_room .atCall nnn h
  exact ⟨t, hexec, hpc, hsp, hlink, hslots, fun a => congrArg (·.mem.read a) hframe, hframe⟩

/-! ### Return -/

/-- With an entry on the stack Return takes the pc from the slot below `SP`, and nothing but the pc and `SP` changes
(spec/41_flow_control.md R173). -/
theorem exec_ret_of_used {s : State} (h : 0 < s.sp.val) :
    ∃ t, exec .ret s = .next t ∧ t.sp.val = s.sp.val - 1 ∧ t.pc = s.stack[s.sp.val - 1]'(by have := s.sp.isLt; omega) ∧
      (∀ a, t.mem.read a = s.mem.read a) ∧ t = { s with pc := t.pc, sp := t.sp } :=
  ⟨_, (exec_ret s).trans (dif_pos h), rfl, rfl, fun _ => rfl, rfl⟩

/-- Settles O29: Return's check of `SP` decides between the pop and the fault. -/
theorem returnPopsThePc : Obligations.ReturnPopsThePc := fun s =>
  ⟨decodeWord_encode (i := .ret) rfl, fun h => exec_ret_of_used h, fun h => (exec_ret s).trans (dif_neg (by omega))⟩

/-! ### Call, then Return -/

/-- The return after a call continues at the call's link, with the stack pointer from before the call
(spec/41_flow_control.md R174). -/
theorem exec_ret_after_callWith (p : Config.ReturnLink) (nnn : Addr12) {s : State} (h : s.sp.val < 16) :
    ∃ t u, callWith p nnn s = .next t ∧ exec .ret t = .next u ∧ u.pc = linkOf p s.pc ∧ u.sp = s.sp := by
  obtain ⟨t, hcall, -, hpush, hlink, -⟩ := callWith_of_room p nnn h
  obtain ⟨u, hret, hpop, hpc, -⟩ := exec_ret_of_used (s := t) (by omega)
  have hslot : t.sp.val - 1 = s.sp.val := by omega
  refine ⟨t, u, hcall, hret, ?_, Fin.ext (hpop.trans hslot)⟩
  simpa only [hslot, hlink] using hpc

/-- Settles O30: the link is the Call's own address under AT_CALL and that plus 2 under AFTER_CALL. -/
theorem callThenReturnRestores : Obligations.CallThenReturnRestores := fun nnn _ h =>
  ⟨exec_ret_after_callWith .atCall nnn h, exec_ret_after_callWith .afterCall nnn h⟩

end Sys2Proof.Machine
end

section
/-! SUPPORT. The conditional skips: what a skip answers by its condition, and the key number's check before the two on keys. -/

namespace Sys2Proof.Machine

/-! ### A skip by its condition -/

/-- An instruction whose effect is a skip: the skip's own 2 and the advance's 2 make pc + 4 where the condition holds, the
advance alone pc + 2 where not, and nothing else changes (spec/40_execute_engine.md R146). -/
theorem exec_skipIf_answers {i : Instr} {s : State} {c : Bool} {p : Prop} [Decidable p]
    (hexec : exec i s = .next (s.skipIf c).advance) (hc : c = true ↔ p) :
    ∃ t, exec i s = .next t ∧ OnlyPc s t ∧ t.pc = if p then s.pc + 4 else s.pc + 2 := by
  refine ⟨_, hexec, ⟨fun _ => rfl, rfl⟩, ?_⟩
  by_cases hp : p
  · simp [hc.2 hp, hp, BitVec.add_assoc]
  · simp [mt hc.1 hp, hp]

/-- The same for a skip on the failing of `p`. -/
theorem exec_skipIf_not_answers {i : Instr} {s : State} {c : Bool} {p : Prop} [Decidable p]
    (hexec : exec i s = .next (s.skipIf c).advance) (hc : c = true ↔ ¬ p) :
    ∃ t, exec i s = .next t ∧ OnlyPc s t ∧ t.pc = if p then s.pc + 2 else s.pc + 4 := by
  simpa only [ite_not] using exec_skipIf_answers hexec hc

/-! ### Comparing registers -/

/-- Settles O31: each comparison is its skip's condition. -/
theorem compareSkips : Obligations.CompareSkips := fun x y kk s =>
  ⟨decodeWord_encode (i := .skipIfRegValEqual x kk) rfl, decodeWord_encode (i := .skipIfRegValNotEqual x kk) rfl,
    decodeWord_encode (i := .skipIfRegRegEqual x y) rfl, decodeWord_encode (i := .skipIfRegRegNotEqual x y) rfl,
    exec_skipIf_answers (exec_skipIfRegValEqual s x kk) beq_iff_eq,
    exec_skipIf_not_answers (exec_skipIfRegValNotEqual s x kk) bne_iff_ne,
    exec_skipIf_answers (exec_skipIfRegRegEqual s x y) beq_iff_eq,
    exec_skipIf_not_answers (exec_skipIfRegRegNotEqual s x y) bne_iff_ne⟩

/-! ### Testing a key -/

/-- Settles O32: below 16 the key's state is the skip's condition, above 15 the check of the key number faults. -/
theorem keySkips : Obligations.KeySkips := by
  refine fun x s => ⟨decodeWord_encode (i := .skipIfKeyPressed x) rfl,
    decodeWord_encode (i := .skipIfKeyNotPressed x) rfl, fun h => ⟨?pressed, ?notPressed⟩, fun h => ⟨?_, ?_⟩⟩
  case pressed => exact exec_skipIf_answers ((exec_skipIfKeyPressed s x).trans (dif_pos h)) Iff.rfl
  case notPressed =>
    exact exec_skipIf_not_answers ((exec_skipIfKeyNotPressed s x).trans (dif_pos h)) (by simp [State.key])
  · exact (exec_skipIfKeyPressed s x).trans (dif_neg (by omega))
  · exact (exec_skipIfKeyNotPressed s x).trans (dif_neg (by omega))

end Sys2Proof.Machine
end

section
/-! SUPPORT. Register loads, timers and the key wait: what a write of one register answers, and the wait by whether some key
is pressed. -/

namespace Sys2Proof.Machine

/-! ### A write of one register -/

/-- One register written and the advance: every other register, memory and the rest of the state stay
(spec/00_scope.md R16). -/
theorem setReg_advance_onlyRegs (s : State) (x : Reg) (b : Byte) : OnlyRegs [x] s (s.setReg x b).advance := by
  refine ⟨fun r hr => ?_, fun _ => rfl, rfl⟩
  rw [State.advance_reg, State.setReg_reg, if_neg (List.ne_of_not_mem_cons hr)]

theorem setReg_advance_reg_self (s : State) (x : Reg) (b : Byte) : (s.setReg x b).advance.reg x = b := by
  rw [State.advance_reg, State.setReg_reg, if_pos rfl]

/-- An instruction whose effect is the write of one register (spec/40_execute_engine.md R144). -/
theorem exec_setReg_answers {i : Instr} {s : State} {x : Reg} {b : Byte} (hexec : exec i s = .next (s.setReg x b).advance) :
    ∃ t, exec i s = .next t ∧ t.reg x = b ∧ t.pc = s.pc + 2 ∧ OnlyRegs [x] s t :=
  ⟨_, hexec, setReg_advance_reg_self s x b, rfl, setReg_advance_onlyRegs s x b⟩

/-! ### The key wait -/

/-- With no key pressed the wait is held on its own state (spec/60_exceptions.md R316). -/
theorem loadKeyToReg_of_none (x : Reg) {s : State} (h : choosePressed s.keypad s.host.pick = none) :
    exec (.loadKeyToReg x) s = .next s ∧ reportExec (.loadKeyToReg x) s = some (.awaitInput, s) := by
  have hheld : awaitsInput (.loadKeyToReg x) s = true := awaitsInput_iff.2 ⟨⟨x, rfl⟩, h⟩
  have hexec := exec_of_awaitsInput hheld
  exact ⟨hexec, by rw [reportExec, hexec, hheld]; rfl⟩

/-- With a key chosen the wait writes its number and reports `Ok` (spec/43_register_loads.md R216). -/
theorem loadKeyToReg_of_some (x : Reg) {s : State} {k : Reg} (h : choosePressed s.keypad s.host.pick = some k) :
    exec (.loadKeyToReg x) s = .next (s.setReg x (BitVec.ofNat 8 k.val)).advance ∧
      reportExec (.loadKeyToReg x) s = some (.ok, (s.setReg x (BitVec.ofNat 8 k.val)).advance) := by
  have hexec : exec (.loadKeyToReg x) s = .next (s.setReg x (BitVec.ofNat 8 k.val)).advance := by
    rw [exec_loadKeyToReg, h]
  have hheld : awaitsInput (.loadKeyToReg x) s = false := by simp [awaitsInput, h]
  exact ⟨hexec, by rw [reportExec, hexec, hheld]; rfl⟩

/-- A key's number fits a byte. -/
theorem setReg_key_toNat (s : State) (x k : Reg) :
    ((s.setReg x (BitVec.ofNat 8 k.val)).advance.reg x).toNat = k.val := by
  rw [setReg_advance_reg_self, BitVec.toNat_ofNat, Nat.mod_eq_of_lt (by omega)]

/-- A pressed key is the one chosen where it is the step's free choice (log 2). -/
theorem choosePressed_of_pick {s : State} {k : Reg} (hk : s.key k = true) (hpick : s.host.pick = k) :
    choosePressed s.keypad s.host.pick = some k := by
  subst hpick; exact if_pos hk

/-- Some key is chosen where some key is pressed, and it is a pressed one. -/
theorem exists_choosePressed {s : State} (h : ∃ k : Reg, s.key k = true) :
    ∃ k, choosePressed s.keypad s.host.pick = some k ∧ s.key k = true := by
  cases hc : choosePressed s.keypad s.host.pick with
  | none =>
    obtain ⟨k, hk⟩ := h
    exact absurd hk (Bool.eq_false_iff.1 (choosePressed_none.1 hc k))
  | some k => exact ⟨k, rfl, choosePressed_pressed hc⟩

/-- Settles O35: no key is chosen exactly when none is pressed, a chosen one is pressed, and the step's choice is taken where
it is pressed. -/
theorem keyWaitTakesAPressedKey : Obligations.KeyWaitTakesAPressedKey := by
  refine fun x s => ⟨decodeWord_encode (i := .loadKeyToReg x) rfl, fun hnone => ?_, fun hsome => ?_, fun k hk hpick => ?_⟩
  · exact loadKeyToReg_of_none x (choosePressed_none.2 hnone)
  · obtain ⟨k, hchosen, hpressed⟩ := exists_choosePressed hsome
    obtain ⟨hexec, hreport⟩ := loadKeyToReg_of_some x hchosen
    exact ⟨_, hexec, hreport, rfl, setReg_advance_onlyRegs s x _, k, hpressed, setReg_key_toNat s x k⟩
  · obtain ⟨hexec, -⟩ := loadKeyToReg_of_some x (choosePressed_of_pick hk hpick)
    exact ⟨_, hexec, setReg_key_toNat s x k⟩

/-! ### Loads and timers -/

/-- Settles O33: both loads write one register. -/
theorem registerLoads : Obligations.RegisterLoads := fun x y kk s =>
  ⟨decodeWord_encode (i := .loadValToReg x kk) rfl, decodeWord_encode (i := .loadRegToReg x y) rfl,
    exec_setReg_answers (exec_loadValToReg s x kk), exec_setReg_answers (exec_loadRegToReg s x y)⟩

/-- Settles O34: `DT` is read into one register, and each timer is written from one with no register changed. -/
theorem timerTransfers : Obligations.TimerTransfers := fun x s =>
  ⟨decodeWord_encode (i := .loadDelayTimerToReg x) rfl, decodeWord_encode (i := .loadRegToDelayTimer x) rfl,
    decodeWord_encode (i := .loadRegToSoundTimer x) rfl, exec_setReg_answers (exec_loadDelayTimerToReg s x),
    ⟨_, exec_loadRegToDelayTimer s x, rfl, rfl, fun _ => rfl, rfl⟩,
    ⟨_, exec_loadRegToSoundTimer s x, rfl, rfl, fun _ => rfl, rfl⟩⟩

end Sys2Proof.Machine
end

section
/-! SUPPORT. The index register, the stores and loads of a block, and the font's glyphs: what each answers, and the sprite of
a digit's glyph by its 4 by 5 pixels. -/

namespace Sys2Proof.Machine

/-! ### The index register -/

/-- A glyph's address does not wrap, whatever the value (spec/44_index_memory.md R231). -/
theorem glyphAddress_toNat (d : Byte) : (glyphAddress d).toNat = 5 * d.toNat := by
  rw [glyphAddress, BitVec.toNat_mul, BitVec.toNat_setWidth, show (5 : Word).toNat = 5 from rfl]; omega

/-- `I` plus a byte, modulo 65536 (spec/44_index_memory.md R237). -/
theorem add_zext16_toNat (a : Word) (b : Byte) : (a + zext16 b).toNat = (a.toNat + b.toNat) % 65536 := by
  rw [BitVec.toNat_add, BitVec.toNat_setWidth]; omega

/-- An instruction whose effect is the write of `I`: nothing else changes but the pc (spec/00_scope.md R16). -/
theorem exec_setI_answers {i : Instr} {s : State} {a : Word} {n : Nat} (hexec : exec i s = .next (s.setI a).advance)
    (ha : a.toNat = n) :
    ∃ t, exec i s = .next t ∧ t.i.toNat = n ∧ t.pc = s.pc + 2 ∧ (∀ b, t.mem.read b = s.mem.read b) ∧
      t = { s with i := t.i, pc := t.pc } :=
  ⟨_, hexec, ha, rfl, fun _ => rfl, rfl⟩

/-- Settles O36: neither `nnn` nor a glyph's address wraps, and the sum of AddRegToI does. -/
theorem indexRegisterWrites : Obligations.IndexRegisterWrites := fun x nnn s =>
  ⟨decodeWord_encode (i := .loadValToI nnn) rfl, decodeWord_encode (i := .loadSpriteLocationToI x) rfl,
    decodeWord_encode (i := .addRegToI x) rfl, exec_setI_answers (exec_loadValToI s nnn) (addressOf_toNat nnn),
    exec_setI_answers (exec_loadSpriteLocationToI s x) (glyphAddress_toNat _),
    exec_setI_answers (exec_addRegToI s x) (add_zext16_toNat _ _)⟩

/-! ### Storing a block -/

/-- A block of bytes stored and the advance: every byte outside the block and the rest of the state stay
(spec/00_scope.md R16). -/
theorem writeBytes_advance_onlyBytes (s : State) (a : Nat) (bytes : List Byte) :
    OnlyBytes a bytes.length s (s.setMem (s.mem.writeBytes a bytes)).advance := by
  refine ⟨fun b houtside => ?_, rfl⟩
  rw [State.advance_mem, State.setMem_mem, Memory.writeBytes_read, if_neg (by omega)]

/-- Each digit of a stored byte is read back at its address, hundreds lowest (spec/44_index_memory.md R232). -/
theorem writeBytes_bcdBytes_read (m : Memory) (a : Nat) (b : Byte) :
    ((m.writeBytes a (bcdBytes b)).read a).toNat = b.toNat / 100 ∧
    ((m.writeBytes a (bcdBytes b)).read (a + 1)).toNat = b.toNat / 10 % 10 ∧
    ((m.writeBytes a (bcdBytes b)).read (a + 2)).toNat = b.toNat % 10 := by
  simp [Memory.writeBytes_read, bcdBytes]

/-- Settles O37: the three digits are the block stored, where it fits. -/
theorem bcdStoresThreeDigits : Obligations.BcdStoresThreeDigits := by
  refine fun x s => ⟨decodeWord_encode (i := .loadRegBcdToMem x) rfl, fun hfits => ?_, fun houtside => ?_⟩
  · obtain ⟨hhundreds, htens, hunits⟩ := writeBytes_bcdBytes_read s.mem s.i.toNat (s.reg x)
    exact ⟨_, (exec_loadRegBcdToMem s x).trans (if_pos (by omega)), hhundreds, htens, hunits, rfl,
      writeBytes_advance_onlyBytes s _ (bcdBytes (s.reg x))⟩
  · exact (exec_loadRegBcdToMem s x).trans (if_neg (by omega))

/-- LoadRegsToMem where its block fits. -/
theorem exec_loadRegsToMem_of_fits {x : Reg} {s : State} (h : s.i.toNat + x.val < 0x1000) :
    exec (.loadRegsToMem x) s = .next (s.setMem (s.mem.writeBytes s.i.toNat (s.regsUpTo x))).advance :=
  (exec_loadRegsToMem s x).trans (if_pos (by omega))

/-- Settles O38: `V0..Vx` are the block stored, where it fits. -/
theorem blockStoreCopiesRegisters : Obligations.BlockStoreCopiesRegisters := by
  refine fun x s => ⟨decodeWord_encode (i := .loadRegsToMem x) rfl, fun hfits => ?_, fun houtside => ?_⟩
  · have hframe := writeBytes_advance_onlyBytes s s.i.toNat (s.regsUpTo x)
    rw [State.regsUpTo_length] at hframe
    exact ⟨_, exec_loadRegsToMem_of_fits hfits, fun k hk => writeBytes_regsUpTo_read s.mem s.i.toNat s hk, rfl, hframe⟩
  · exact (exec_loadRegsToMem s x).trans (if_neg (by omega))

/-! ### Loading a block -/

/-- LoadMemToRegs where its block fits. -/
theorem exec_loadMemToRegs_of_fits {x : Reg} {s : State} (h : s.i.toNat + x.val < 0x1000) :
    exec (.loadMemToRegs x) s = .next (s.loadRegs x).advance :=
  (exec_loadMemToRegs s x).trans (if_pos (by omega))

theorem loadRegs_advance_reg_of_le (s : State) {x k : Reg} (h : k ≤ x) :
    (s.loadRegs x).advance.reg k = s.mem.read (s.i.toNat + k.val) := by
  rw [State.advance_reg, State.loadRegs_reg, if_pos h]

theorem loadRegs_advance_reg_of_lt (s : State) {x k : Reg} (h : x < k) : (s.loadRegs x).advance.reg k = s.reg k := by
  rw [State.advance_reg, State.loadRegs_reg, if_neg (not_le_of_gt h)]

/-- A block loaded and the advance change the registers and the pc alone (spec/00_scope.md R16). -/
theorem loadRegs_advance_frame (s : State) (x : Reg) : (s.loadRegs x).advance =
    { s with v := (s.loadRegs x).advance.v, pc := (s.loadRegs x).advance.pc } := by
  cases s; rfl

/-- Settles O39: the registers up to `x` are read from the block, where it fits. -/
theorem blockLoadFillsRegisters : Obligations.BlockLoadFillsRegisters := by
  refine fun x s => ⟨decodeWord_encode (i := .loadMemToRegs x) rfl, fun hfits => ?_, fun houtside => ?_⟩
  · refine ⟨_, exec_loadMemToRegs_of_fits hfits, fun _ => loadRegs_advance_reg_of_le s,
      fun _ => loadRegs_advance_reg_of_lt s, ?_, fun a => ?_, loadRegs_advance_frame s x⟩
    · rw [State.advance_pc, State.loadRegs_pc]
    · rw [State.advance_mem, State.loadRegs_mem]
  · exact (exec_loadMemToRegs s x).trans (if_neg (by omega))

/-- Settles O40: the store leaves `I`, so the load reads the block just stored, and the registers in between are not read. -/
theorem blockStoreThenLoadRestores : Obligations.BlockStoreThenLoadRestores := by
  intro x s v hfits
  refine ⟨_, _, exec_loadRegsToMem_of_fits hfits, exec_loadMemToRegs_of_fits hfits, fun k hk => ?_⟩
  rw [loadRegs_advance_reg_of_le _ hk]
  exact writeBytes_regsUpTo_read s.mem s.i.toNat s hk

/-! ### The font -/

/-- LoadSpriteLocationToI of a digit addresses its glyph (spec/44_index_memory.md R231). -/
theorem setI_glyphAddress_digit {s : State} {x : Reg} {d : Fin 16} (hd : (s.reg x).toNat = d.val) :
    (s.setI (glyphAddress (s.reg x))).advance.i.toNat = 5 * d.val := by
  rw [State.advance_i, State.setI_i, glyphAddress_toNat, hd]

/-- Settles O49: a glyph's byte is its row above four zero bits. -/
theorem fontHoldsGlyphs : Obligations.FontHoldsGlyphs := by
  refine ⟨fun d k b => ?_, fun a b ha => ?_, fun x d s hd => ?_⟩
  · rw [reset_mem_read, initialByte_glyph, glyphByte_high _ b.isLt]
  · rw [reset_mem_read, initialByte_font ha, glyphByte_low _ b.isLt]
  · exact ⟨_, exec_loadSpriteLocationToI s x, setI_glyphAddress_digit hd⟩

/-! ### Drawing a digit -/

/-- Column `b` of a glyph's byte, from the left, is set only within the 4 pixels of its row (spec/44_index_memory.md R235,
spec/46_display_system.md R291). -/
theorem glyphByte_column (row : Nibble) {b : Nat} (hb : b < 8) :
    (glyphByte row).getLsbD (7 - b) = true ↔ b < 4 ∧ row.getLsbD (3 - b) = true := by
  by_cases h : b < 4
  · rw [show 7 - b = 4 + (3 - b) by omega, glyphByte_high row (by omega)]; simp [h]
  · rw [glyphByte_low row (by omega)]; simp [h]

/-- On the font as reset leaves it, the sprite of 5 bytes at a digit's glyph covers exactly the digit's set pixels. -/
theorem spriteCovers_glyph {s : State} {d : Fin 16} (hi : s.i.toNat = 5 * d.val)
    (hfont : ∀ a < 80, s.mem.read a = State.reset.mem.read a) (x y : Reg) (r : Fin 32) (c : Fin 64) :
    spriteCovers s x y 5 r c ↔ digitCovers d (s.reg x) (s.reg y) r c := by
  have hbyte (k : Fin 5) : s.mem.read (s.i.toNat + k.val) = glyphByte (Config.glyphRows[d.val])[k.val] := by
    rw [hi, hfont _ (by omega), reset_mem_read, initialByte_glyph]
  constructor
  · rintro ⟨k, b, hk, hb, hr, hc, hbit⟩
    rw [hbyte ⟨k, hk⟩, glyphByte_column _ hb] at hbit
    exact ⟨⟨k, hk⟩, ⟨b, hbit.1⟩, hr, hc, hbit.2⟩
  · rintro ⟨k, b, hr, hc, hbit⟩
    refine ⟨k, b, k.isLt, by omega, hr, hc, ?_⟩
    rw [hbyte k, glyphByte_column _ (by omega)]
    exact ⟨b.isLt, hbit⟩

/-- A draw whose bytes are all in memory flips the pixels its sprite covers and no other (spec/46_display_system.md R292). -/
theorem exec_drawSprite_pixels {s : State} {n : Nibble} (x y : Reg) (hfits : s.i.toNat + n.toNat ≤ 0x1000) :
    ∃ t, exec (.drawSprite x y n) s = .next t ∧ ∀ (r : Fin 32) (c : Fin 64),
      (spriteCovers s x y n r c → t.display.pixel (r, c) = !s.display.pixel (r, c)) ∧
      (¬ spriteCovers s x y n r c → t.display.pixel (r, c) = s.display.pixel (r, c)) := by
  refine ⟨_, (exec_drawSprite s x y n).trans (if_pos (.inr hfits)), fun r c => ?_⟩
  rw [State.advance_display, State.setFlag_display, State.setDisplay_display, drawPixels_pixel (s.spriteOf_nodup x y n),
    ← State.mem_spriteOf]
  exact ⟨fun h => if_pos h, fun h => if_neg h⟩

/-- Settles O50: `I` addresses the digit's glyph, which lies in memory, and the draw flips what the glyph's sprite covers. -/
theorem digitDrawIsFourByFive : Obligations.DigitDrawIsFourByFive := by
  intro z x y d s hd hfont
  have hi := setI_glyphAddress_digit hd
  have hfits : (s.setI (glyphAddress (s.reg z))).advance.i.toNat + (5 : Nibble).toNat ≤ 0x1000 := by
    rw [hi, show (5 : Nibble).toNat = 5 from rfl]; omega
  obtain ⟨u, hdraw, hpixels⟩ := exec_drawSprite_pixels x y hfits
  refine ⟨_, u, exec_loadSpriteLocationToI s z, hdraw, fun r c => ?_⟩
  have hcovers := spriteCovers_glyph hi hfont x y r c
  exact ⟨fun h => (hpixels r c).1 (hcovers.2 h), fun h => (hpixels r c).2 (mt hcovers.1 h)⟩

end Sys2Proof.Machine
end

section
/-! SUPPORT. The ALU operations: what a write of a result and then the flag answers, and the results and flags as numbers. -/

namespace Sys2Proof.Machine

/-! ### A write of a result and then the flag -/

/-- A result and the flag written and the advance: every other register, memory and the rest of the state stay
(spec/00_scope.md R16). -/
theorem setRegFlag_advance_onlyRegs (s : State) (x : Reg) (result flag : Byte) :
    OnlyRegs [x, VF] s (s.setRegFlag x result flag).advance := by
  refine ⟨fun r hr => ?_, fun _ => rfl, rfl⟩
  obtain ⟨hx, hflag⟩ : r ≠ x ∧ r ≠ VF := by simpa using hr
  rw [State.advance_reg, State.setRegFlag_reg, if_neg hflag, if_neg hx]

theorem setRegFlag_advance_reg_flag (s : State) (x : Reg) (result flag : Byte) :
    (s.setRegFlag x result flag).advance.reg VF = flag := by
  rw [State.advance_reg, State.setRegFlag_reg, if_pos rfl]

theorem setRegFlag_advance_reg_self (s : State) {x : Reg} (result flag : Byte) (hx : x ≠ VF) :
    (s.setRegFlag x result flag).advance.reg x = result := by
  rw [State.advance_reg, State.setRegFlag_reg, if_neg hx, if_pos rfl]

/-- An instruction whose effect is a result and then the flag: the result stays in `x` unless the flag overwrites it
(spec/45_alu.md R271). -/
theorem exec_setRegFlag_answers {i : Instr} {s : State} {x : Reg} {result flag : Byte} {n : Nat}
    (hexec : exec i s = .next (s.setRegFlag x result flag).advance) (hresult : result.toNat = n) :
    ∃ t, exec i s = .next t ∧ (x ≠ VF → (t.reg x).toNat = n) ∧ t.reg VF = flag ∧ t.pc = s.pc + 2 ∧
      OnlyRegs [x, VF] s t :=
  ⟨_, hexec, fun hx => by rw [setRegFlag_advance_reg_self s result flag hx, hresult],
    setRegFlag_advance_reg_flag s x result flag, rfl, setRegFlag_advance_onlyRegs s x result flag⟩

/-! ### Results and flags as numbers -/

/-- Subtraction modulo 256 (spec/45_alu.md R260). -/
theorem byte_sub_toNat (a b : Byte) : (a - b).toNat = (a.toNat + 256 - b.toNat) % 256 := by
  rw [BitVec.toNat_sub]; omega

theorem byte_shiftRight_one_toNat (a : Byte) : (a >>> 1).toNat = a.toNat / 2 := by
  rw [BitVec.toNat_ushiftRight, Nat.shiftRight_eq_div_pow, pow_one]

theorem byte_shiftLeft_one_toNat (a : Byte) : (a <<< 1).toNat = a.toNat * 2 % 256 := by
  rw [BitVec.toNat_shiftLeft, Nat.shiftLeft_eq, pow_one]

theorem carryFlag_eq (a b : Byte) : carryFlag a b = if 255 < a.toNat + b.toNat then 1 else 0 := by
  simp [carryFlag, flagByte]

theorem notBorrowFlag_eq (a b : Byte) : notBorrowFlag a b = if b.toNat ≤ a.toNat then 1 else 0 := by
  simp [notBorrowFlag, flagByte]

/-- A right shift puts out the remainder of the halving. -/
theorem shiftRightFlag_toNat (a : Byte) : (shiftRightFlag a).toNat = a.toNat % 2 :=
  (BitVec.toNat_and a 1).trans (Nat.and_one_is_mod _)

/-- A left shift puts out the highest bit. -/
theorem shiftLeftFlag_toNat (a : Byte) : (shiftLeftFlag a).toNat = a.toNat / 128 := by
  rw [shiftLeftFlag, BitVec.toNat_ushiftRight, Nat.shiftRight_eq_div_pow]

/-! ### The operations -/

/-- Settles O41: the three write one register. -/
theorem bitwiseOperations : Obligations.BitwiseOperations := fun x y s =>
  ⟨decodeWord_encode (i := .orRegReg x y) rfl, decodeWord_encode (i := .andRegReg x y) rfl,
    decodeWord_encode (i := .xorRegReg x y) rfl, exec_setReg_answers (exec_orRegReg s x y),
    exec_setReg_answers (exec_andRegReg s x y), exec_setReg_answers (exec_xorRegReg s x y)⟩

/-- Settles O42: the sum and then the carry, which is the sum's ninth bit. -/
theorem addSetsCarry : Obligations.AddSetsCarry := by
  intro x y s
  rw [← carryFlag_eq]
  exact ⟨decodeWord_encode (i := .addRegToReg x y) rfl,
    exec_setRegFlag_answers (exec_addRegToReg s x y) (BitVec.toNat_add _ _)⟩

/-- Settles O43: both differences are one subtraction, with the operands exchanged in its result and its flag alike. -/
theorem subtractSetsNotBorrow : Obligations.SubtractSetsNotBorrow := by
  intro x y s
  simp only [← notBorrowFlag_eq]
  exact ⟨decodeWord_encode (i := .subRegFromReg x y) rfl, decodeWord_encode (i := .subnRegFromReg x y) rfl,
    exec_setRegFlag_answers (exec_subRegFromReg s x y) (byte_sub_toNat _ _),
    exec_setRegFlag_answers (exec_subnRegFromReg s x y) (byte_sub_toNat _ _)⟩

/-- Settles O44: the result and the flag are the quotient and the remainder of one division, and neither reads `y`. -/
theorem shiftsSetBitShiftedOut : Obligations.ShiftsSetBitShiftedOut := by
  intro x y s
  simp only [← shiftRightFlag_toNat, ← shiftLeftFlag_toNat, BitVec.toNat_inj]
  exact ⟨decodeWord_encode (i := .shiftRightReg x y) rfl, decodeWord_encode (i := .shiftLeftReg x y) rfl,
    exec_setRegFlag_answers (exec_shiftRightReg s x y) (byte_shiftRight_one_toNat _),
    exec_setRegFlag_answers (exec_shiftLeftReg s x y) (byte_shiftLeft_one_toNat _),
    fun y' => ⟨(exec_shiftRightReg s x y').trans (exec_shiftRightReg s x y).symm,
      (exec_shiftLeftReg s x y').trans (exec_shiftLeftReg s x y).symm⟩⟩

/-- Settles O45: both write one register, the sum modulo 256 or the step's byte masked. -/
theorem immediateAddAndRandom : Obligations.ImmediateAddAndRandom := by
  intro x kk s
  obtain ⟨t, hexec, hsum, hpc, hframe⟩ := exec_setReg_answers (exec_addValToReg s x kk)
  exact ⟨decodeWord_encode (i := .addValToReg x kk) rfl, decodeWord_encode (i := .randomAndValToReg x kk) rfl,
    ⟨t, hexec, by rw [hsum, BitVec.toNat_add], hpc, hframe⟩, exec_setReg_answers (exec_randomAndValToReg s x kk)⟩

end Sys2Proof.Machine
end

section
/-! SUPPORT. The display operations: the state a draw leaves, its pixels, flag and frame, and the same draw made again on that
state. -/

namespace Sys2Proof.Machine

/-! ### Clearing the display, and SysCall -/

/-- Settles O46: ClearScreen replaces the display by the dark one before the advance, and SysCall is the advance alone. -/
theorem clearScreenAndSysCall : Obligations.ClearScreenAndSysCall := by
  refine fun nnn s => ⟨decodeWord_encode (i := .clearScreen) rfl, fun hclear hret => ?_,
    ⟨_, exec_clearScreen s, Display.clear_pixel, rfl, fun _ => rfl, rfl⟩,
    ⟨_, exec_sysCall s nnn, rfl, fun _ => rfl, rfl⟩⟩
  exact decodeWord_encode (i := .sysCall nnn) (wellFormed_sysCall.2 ⟨hclear, hret⟩)

/-! ### The state a draw leaves -/

/-- The state that DrawSprite answers from `s` where every byte of its sprite is in memory (`exec_drawSprite_of_fits`). -/
def State.drawn (s : State) (x y : Reg) (n : Nibble) : State :=
  ((s.setDisplay (drawPixels s.display (s.spriteOf x y n)).1).setFlag
    (collisionFlag (drawPixels s.display (s.spriteOf x y n)).2)).advance

theorem exec_drawSprite_of_fits {s : State} {n : Nibble} (x y : Reg) (hfits : n.toNat = 0 ∨ s.i.toNat + n.toNat ≤ 0x1000) :
    exec (.drawSprite x y n) s = .next (s.drawn x y n) :=
  (exec_drawSprite s x y n).trans (if_pos hfits)

section
variable (s : State) (x y : Reg) (n : Nibble)

@[simp] theorem State.drawn_i : (s.drawn x y n).i = s.i := rfl
@[simp] theorem State.drawn_pc : (s.drawn x y n).pc = s.pc + 2 := rfl
@[simp] theorem State.drawn_mem : (s.drawn x y n).mem = s.mem := rfl

/-- A draw and the advance change the registers, the display and the pc alone (spec/00_scope.md R16). -/
theorem State.drawn_frame : s.drawn x y n =
    { s with v := (s.drawn x y n).v, display := (s.drawn x y n).display, pc := (s.drawn x y n).pc } := rfl

/-- A draw inverts the pixels of its sprite and no other (spec/46_display_system.md R292). -/
theorem State.drawn_pixel (p : Pixel) :
    (s.drawn x y n).display.pixel p = if p ∈ s.spriteOf x y n then !s.display.pixel p else s.display.pixel p :=
  drawPixels_pixel (s.spriteOf_nodup x y n) s.display p

theorem State.drawn_reg_of_ne {r : Reg} (hr : r ≠ VF) : (s.drawn x y n).reg r = s.reg r := by
  rw [State.drawn, State.advance_reg, State.setFlag_reg, if_neg hr, State.setDisplay_reg]

/-- The flag says whether a pixel of the sprite was lit before the draw (spec/46_display_system.md R292). -/
theorem State.drawn_reg_flag :
    (s.drawn x y n).reg VF = if ∃ p ∈ s.spriteOf x y n, s.display.pixel p = true then 1 else 0 := by
  rw [State.drawn, State.advance_reg, State.setFlag_reg, if_pos rfl, drawPixels_collision (s.spriteOf_nodup x y n),
    collisionFlag, flagByte]
  simp only [List.any_eq_true]

end

/-- Settles O47: the draw inverts its sprite's pixels, which are those it covers, and the bounds check decides on the fault. -/
theorem drawSpriteXorsCoveredPixels : Obligations.DrawSpriteXorsCoveredPixels := by
  refine fun x y n s => ⟨decodeWord_encode (i := .drawSprite x y n) rfl, fun hfits => ?_, fun hpos houtside => ?_⟩
  · simp only [← State.mem_spriteOf]
    refine ⟨s.drawn x y n, exec_drawSprite_of_fits x y hfits, fun r c hcovers => ?_, fun r c hcovers => ?_, ?lit, ?dark,
      s.drawn_pc x y n, fun r => s.drawn_reg_of_ne x y n, fun a => ?_, s.drawn_frame x y n⟩
    · rw [State.drawn_pixel, if_pos hcovers]
    · rw [State.drawn_pixel, if_neg hcovers]
    case lit =>
      rintro ⟨r, c, hcovers, hlit⟩
      rw [State.drawn_reg_flag, if_pos ⟨(r, c), hcovers, hlit⟩]
    case dark =>
      intro hdark
      rw [State.drawn_reg_flag, if_neg]
      rintro ⟨⟨r, c⟩, hcovers, hlit⟩
      exact Bool.false_ne_true ((hdark r c hcovers).symm.trans hlit)
    · rw [State.drawn_mem]
  · exact (exec_drawSprite s x y n).trans (if_neg (by omega))

/-! ### The same draw again -/

/-- A draw leaves what its sprite is read from, unless a coordinate is `VF` (spec/46_display_system.md R292). -/
theorem State.drawn_spriteOf (s : State) {x y : Reg} (n : Nibble) (hx : x ≠ VF) (hy : y ≠ VF) :
    (s.drawn x y n).spriteOf x y n = s.spriteOf x y n := by
  simp only [State.spriteOf, State.drawn_mem, State.drawn_i, State.drawn_reg_of_ne _ _ _ _ hx,
    State.drawn_reg_of_ne _ _ _ _ hy]

/-- Two draws of the same sprite invert each of its pixels twice. -/
theorem State.drawn_drawn_display (s : State) {x y : Reg} (n : Nibble) (hx : x ≠ VF) (hy : y ≠ VF) :
    ((s.drawn x y n).drawn x y n).display = s.display := by
  refine Display.ext_pixel fun p => ?_
  rw [State.drawn_pixel, State.drawn_spriteOf s n hx hy, State.drawn_pixel]
  by_cases hp : p ∈ s.spriteOf x y n
  · rw [if_pos hp, if_pos hp, Bool.not_not]
  · rw [if_neg hp, if_neg hp]

/-- A byte is not 0 exactly when one of its bits, counted from the left, is set. -/
theorem byte_ne_zero_iff {b : Byte} : b ≠ 0 ↔ ∃ c < 8, b.getLsbD (7 - c) = true := by
  constructor
  · intro hb
    by_contra! hclear
    refine hb (BitVec.eq_of_getLsbD_eq fun c hc => Eq.trans ?_ BitVec.getLsbD_zero.symm)
    have hbit := hclear (7 - c) (by omega)
    rw [Nat.sub_sub_self (by omega)] at hbit
    exact Bool.eq_false_iff.2 hbit
  · rintro ⟨c, -, hbit⟩ rfl
    exact Bool.false_ne_true (BitVec.getLsbD_zero.symm.trans hbit)

/-- A sprite has a pixel exactly when one of its bytes is not 0 (spec/46_display_system.md R292). -/
theorem State.exists_mem_spriteOf {s : State} {x y : Reg} {n : Nibble} :
    (∃ p, p ∈ s.spriteOf x y n) ↔ ∃ k < n.toNat, s.mem.read (s.i.toNat + k) ≠ 0 := by
  constructor
  · rintro ⟨⟨r, c⟩, hp⟩
    obtain ⟨k, b, hk, hb, -, -, hbit⟩ := (s.mem_spriteOf x y n r c).1 hp
    exact ⟨k, hk, byte_ne_zero_iff.2 ⟨b, hb, hbit⟩⟩
  · rintro ⟨k, hk, hbyte⟩
    obtain ⟨b, hb, hbit⟩ := byte_ne_zero_iff.1 hbyte
    exact ⟨wrapPixel ((s.reg y).toNat + k) ((s.reg x).toNat + b),
      (s.mem_spriteOf x y n _ _).2 ⟨k, b, hk, hb, rfl, rfl, hbit⟩⟩

/-- On a dark display the first draw lights the sprite's pixels, so the second draw finds one of them lit where there is
any. -/
theorem State.drawn_drawn_reg_flag_of_clear {s : State} {x y : Reg} (n : Nibble) (hx : x ≠ VF) (hy : y ≠ VF)
    (hclear : s.display = Display.clear) : ((s.drawn x y n).drawn x y n).reg VF =
      if ∃ k < n.toNat, s.mem.read (s.i.toNat + k) ≠ 0 then 1 else 0 := by
  have hlit : (∃ p ∈ s.spriteOf x y n, (s.drawn x y n).display.pixel p = true) ↔ ∃ p, p ∈ s.spriteOf x y n := by
    refine exists_congr fun p => and_iff_left_of_imp fun hp => ?_
    rw [State.drawn_pixel, if_pos hp, hclear, Display.clear_pixel, Bool.not_false]
  rw [State.drawn_reg_flag, State.drawn_spriteOf s n hx hy]
  exact if_congr (hlit.trans State.exists_mem_spriteOf) rfl rfl

/-- Settles O48: the first draw leaves the sprite as it was, and the second inverts the same pixels back. -/
theorem drawTwiceRestoresDisplay : Obligations.DrawTwiceRestoresDisplay := by
  intro x y n s hx hy hfits
  refine ⟨s.drawn x y n, (s.drawn x y n).drawn x y n, exec_drawSprite_of_fits x y hfits, exec_drawSprite_of_fits x y hfits,
    s.drawn_drawn_display n hx hy, fun hclear => ⟨?_, State.drawn_drawn_reg_flag_of_clear n hx hy hclear⟩⟩
  rw [State.drawn_reg_flag, if_neg]
  rintro ⟨p, -, hlit⟩
  rw [hclear, Display.clear_pixel] at hlit
  exact Bool.false_ne_true hlit

end Sys2Proof.Machine
end

section
/-! SUPPORT. The outcomes of a step (spec/60_exceptions.md R310): every fault has one of six causes, which the registers, `I`
and `SP` decide; every step reports an outcome and goes on as it says; a final one is reported again; and the ticks. -/

namespace Sys2Proof.Machine

/-! ### The causes of the faults -/

/-- Why an instruction faults on `s`, by the fault's cause (spec/60_exceptions.md R311, R312, R314, R315): only the stack
pointer, `I` and the registers are looked at. -/
inductive FaultCause (s : State) : Instr → Fault → Prop
  | stackFull (nnn : Addr12) (full : s.sp.val = 16) : FaultCause s (.call nnn) .stackOverflow
  | stackEmpty (empty : s.sp.val = 0) : FaultCause s .ret .stackUnderflow
  | digitsOutside (x : Reg) (outside : 0x1000 < s.i.toNat + 3) :
      FaultCause s (.loadRegBcdToMem x) (.addressFault (max s.i.toNat 0x1000))
  | blockOutside {i : Instr} {x : Reg} (isBlockCopy : i = .loadRegsToMem x ∨ i = .loadMemToRegs x)
      (outside : 0x1000 < s.i.toNat + (x.val + 1)) : FaultCause s i (.addressFault (max s.i.toNat 0x1000))
  | spriteOutside (x y : Reg) (n : Nibble) (nonempty : 0 < n.toNat) (outside : 0x1000 < s.i.toNat + n.toNat) :
      FaultCause s (.drawSprite x y n) (.addressFault (max s.i.toNat 0x1000))
  | noSuchKey {i : Instr} {x : Reg} (isKeySkip : i = .skipIfKeyPressed x ∨ i = .skipIfKeyNotPressed x)
      (above : 15 < (s.reg x).toNat) : FaultCause s i (.keyIndexFault (s.reg x))

/-- An instruction that checks first answers a next state where the check holds, and its fault where not. -/
theorem answers_of_check {i : Instr} {s : State} {c : Prop} [Decidable c] {u : c → State} {f : Fault}
    (hexec : exec i s = if hc : c then .next (u hc) else .fault f) (hcause : ¬ c → FaultCause s i f) :
    (∃ t, exec i s = .next t) ∨ ∃ f, exec i s = .fault f ∧ FaultCause s i f := by
  by_cases hc : c
  · exact .inl ⟨u hc, hexec.trans (dif_pos hc)⟩
  · exact .inr ⟨f, hexec.trans (dif_neg hc), hcause hc⟩

/-- Every instruction answers a next state or a fault that has its cause; none is refused. -/
theorem exec_answers (i : Instr) (s : State) :
    (∃ t, exec i s = .next t) ∨ ∃ f, exec i s = .fault f ∧ FaultCause s i f := by
  cases i with
  | call nnn => exact answers_of_check (callWith_eq s .atCall nnn) fun h => .stackFull nnn (by omega)
  | ret => exact answers_of_check (exec_ret s) fun h => .stackEmpty (by omega)
  | loadRegBcdToMem x => exact answers_of_check (exec_loadRegBcdToMem s x) fun h => .digitsOutside x (by omega)
  | loadRegsToMem x => exact answers_of_check (exec_loadRegsToMem s x) fun h => .blockOutside (.inl rfl) (by omega)
  | loadMemToRegs x => exact answers_of_check (exec_loadMemToRegs s x) fun h => .blockOutside (.inr rfl) (by omega)
  | drawSprite x y n =>
    exact answers_of_check (exec_drawSprite s x y n) fun h => .spriteOutside x y n (by omega) (by omega)
  | skipIfKeyPressed x => exact answers_of_check (exec_skipIfKeyPressed s x) fun h => .noSuchKey (.inl rfl) (by omega)
  | skipIfKeyNotPressed x => exact answers_of_check (exec_skipIfKeyNotPressed s x) fun h => .noSuchKey (.inr rfl) (by omega)
  | _ => exact .inl ⟨_, rfl⟩

theorem exec_fault_cause {i : Instr} {s : State} {f : Fault} (h : exec i s = .fault f) : FaultCause s i f := by
  obtain ⟨t, ht⟩ | ⟨g, hg, cause⟩ := exec_answers i s
  · cases h.symm.trans ht
  · cases h.symm.trans hg; exact cause

/-- Each cause is enough for its fault. -/
theorem FaultCause.exec_fault {i : Instr} {s : State} {f : Fault} (cause : FaultCause s i f) : exec i s = .fault f := by
  cases cause with
  | stackFull nnn full => exact callWith_of_full .atCall nnn full
  | stackEmpty empty => exact (exec_ret s).trans (dif_neg (by omega))
  | digitsOutside x outside => exact (exec_loadRegBcdToMem s x).trans (if_neg (by omega))
  | blockOutside isBlockCopy outside =>
    obtain rfl | rfl := isBlockCopy
    · exact (exec_loadRegsToMem s _).trans (if_neg (by omega))
    · exact (exec_loadMemToRegs s _).trans (if_neg (by omega))
  | spriteOutside x y n nonempty outside => exact (exec_drawSprite s x y n).trans (if_neg (by omega))
  | noSuchKey isKeySkip above =>
    obtain rfl | rfl := isKeySkip
    · exact (exec_skipIfKeyPressed s _).trans (dif_neg (by omega))
    · exact (exec_skipIfKeyNotPressed s _).trans (dif_neg (by omega))

/-- Settles O18: the causes are those the statement lists, its bounds those of the last byte. -/
theorem faultsHaveTheirCauses : Obligations.FaultsHaveTheirCauses := by
  intro i s f h
  cases exec_fault_cause h with
  | stackFull nnn full => exact .inl ⟨rfl, ⟨nnn, rfl⟩, full⟩
  | stackEmpty empty => exact .inr (.inl ⟨rfl, rfl, empty⟩)
  | digitsOutside x outside => exact .inr (.inr (.inl ⟨rfl, .inl ⟨x, rfl, by omega⟩⟩))
  | blockOutside isBlockCopy outside => exact .inr (.inr (.inl ⟨rfl, .inr (.inl ⟨_, isBlockCopy, by omega⟩)⟩))
  | spriteOutside x y n nonempty outside =>
    exact .inr (.inr (.inl ⟨rfl, .inr (.inr ⟨x, y, n, rfl, nonempty, by omega⟩)⟩))
  | noSuchKey isKeySkip above => exact .inr (.inr (.inr ⟨_, rfl, isKeySkip, above⟩))

/-! ### The outcome of a step -/

/-- Where the two bytes at the pc decode to an instruction, the step's report is that of its execution on `S0`
(spec/40_execute_engine.md R148). -/
theorem stepReport_of_decode {s : State} {i : Instr} (hpc : s.pc.toNat + 2 ≤ 0x1000)
    (hdecode : decode (s.mem.read s.pc.toNat) (s.mem.read (s.pc.toNat + 1)) = .instr i) :
    stepReport s = reportExec i (beginStep s) := by
  rw [stepReport_eq, if_pos hpc, hdecode]

/-- A pc that addresses no whole word is reported with the lowest address out of memory (spec/40_execute_engine.md R141). -/
theorem stepReport_of_outside {s : State} (hpc : ¬ s.pc.toNat + 2 ≤ 0x1000) :
    stepReport s = some (.addressFault (max s.pc.toNat 0x1000), beginStep s) := by
  rw [stepReport_eq, if_neg hpc]

theorem reportExec_of_next {i : Instr} {s t : State} (h : exec i s = .next t) :
    reportExec i s = some (if awaitsInput i s then .awaitInput else .ok, t) := by
  rw [reportExec, h]

theorem reportExec_of_fault {i : Instr} {s : State} {f : Fault} (h : exec i s = .fault f) :
    reportExec i s = some (outcomeOfFault f, s) := by
  rw [reportExec, h]

/-- Settles O16: the fetch, the decoder and the execution each report what the step then does, and no execution is
refused. -/
theorem everyStepReportsAnOutcome : Obligations.EveryStepReportsAnOutcome := by
  intro s
  by_cases hpc : s.pc.toNat + 2 ≤ 0x1000
  · cases hdecode : decode (s.mem.read s.pc.toNat) (s.mem.read (s.pc.toNat + 1)) with
    | instr i =>
      rw [stepReport_of_decode hpc hdecode, step_of_decode hpc hdecode]
      obtain ⟨t, hnext⟩ | ⟨f, hfault, cause⟩ := exec_answers i (beginStep s)
      · refine ⟨_, _, reportExec_of_next hnext, ?_⟩
        cases awaitsInput i (beginStep s) <;> exact hnext
      · refine ⟨_, _, reportExec_of_fault hfault, ?_⟩
        cases cause <;> exact hfault
    | unrecognized raw =>
      refine ⟨_, _, stepReport_of_unrecognized hpc hdecode, ?_⟩
      rw [step_of_unrecognized hpc hdecode]
      cases (nextInput s).onUnrecognized with
      | halt => exact .inl rfl
      | skip => exact .inr rfl
  · exact ⟨_, _, stepReport_of_outside hpc, (fetch_out_of_memory (by omega) rfl).2⟩

/-! ### A final outcome is reported again -/

/-- A fault's cause looks at the registers, `I` and `SP` alone. -/
theorem FaultCause.congr {i : Instr} {s t : State} {f : Fault} (cause : FaultCause s i f)
    (hreg : ∀ r, t.reg r = s.reg r) (hi : t.i = s.i) (hsp : t.sp = s.sp) : FaultCause t i f := by
  cases cause with
  | stackFull nnn full => exact .stackFull nnn (hsp ▸ full)
  | stackEmpty empty => exact .stackEmpty (hsp ▸ empty)
  | digitsOutside x outside => rw [← hi] at outside ⊢; exact .digitsOutside x outside
  | blockOutside isBlockCopy outside => rw [← hi] at outside ⊢; exact .blockOutside isBlockCopy outside
  | spriteOutside x y n nonempty outside => rw [← hi] at outside ⊢; exact .spriteOutside x y n nonempty outside
  | noSuchKey isKeySkip above => rw [← hreg] at above ⊢; exact .noSuchKey isKeySkip above

/-- An execution that faults does so again after the next inputs are taken, whatever they are. -/
theorem exec_fault_again {i : Instr} {s : State} {f : Fault} (h : exec i s = .fault f) (q : List Config.HostInput) :
    exec i (beginStep (s.withQueued q)) = .fault f :=
  FaultCause.exec_fault ((exec_fault_cause h).congr (fun _ => rfl) rfl rfl)

/-- A final outcome of an execution stands for a fault of it (spec/60_exceptions.md R317). -/
theorem reportExec_fatal {i : Instr} {s t : State} {o : StepOutcome} (h : reportExec i s = some (o, t))
    (ho : outcomeFatal o = true) : ∃ f, exec i s = .fault f ∧ o = outcomeOfFault f := by
  obtain ⟨u, hnext⟩ | ⟨f, hfault, -⟩ := exec_answers i s
  · rw [reportExec_of_next hnext] at h
    cases h
    cases hheld : awaitsInput i s <;> simp [hheld, outcomeFatal] at ho
  · rw [reportExec_of_fault hfault] at h
    cases h; exact ⟨f, hfault, rfl⟩

/-- Settles O17: the state returned is `S0`, and taking other inputs on it changes nothing that the fetch, the decoder or a
fault's cause looks at. -/
theorem fatalOutcomeRepeats : Obligations.FatalOutcomeRepeats := by
  intro s t o h ho q
  obtain rfl : t = beginStep s := failingStepReturnsStartState s t o h (by rintro rfl; cases ho)
  by_cases hpc : s.pc.toNat + 2 ≤ 0x1000
  · cases hdecode : decode (s.mem.read s.pc.toNat) (s.mem.read (s.pc.toNat + 1)) with
    | instr i =>
      rw [stepReport_of_decode hpc hdecode] at h
      obtain ⟨f, hfault, rfl⟩ := reportExec_fatal h ho
      rw [stepReport_of_decode (s := (beginStep s).withQueued q) hpc hdecode]
      exact ⟨_, reportExec_of_fault (exec_fault_again hfault q)⟩
    | unrecognized raw =>
      rw [stepReport_of_unrecognized hpc hdecode] at h
      cases h; cases ho
  · rw [stepReport_of_outside hpc] at h
    cases h
    exact ⟨_, stepReport_of_outside (s := (beginStep s).withQueued q) hpc⟩

/-! ### Ticks -/

/-- Settles O25: each timer saturates by itself, and one more tick is one tick taken first. -/
theorem ticksSaturateAtZero : Obligations.TicksSaturateAtZero := fun n s =>
  ⟨tickTimerBy_toNat n s.dt, tickTimerBy_toNat n s.st, rfl, rfl⟩

end Sys2Proof.Machine
end

section
/-! SUPPORT. The state after reset, field by field (spec/70_reset_and_hazards.md R340), and that it meets the invariants that
every step keeps. -/

namespace Sys2Proof.Machine

/-! ### The reset state's vectors -/

@[simp] theorem State.reset_reg (x : Reg) : State.reset.reg x = 0 := Vector.getElem_replicate x.isLt

@[simp] theorem State.reset_stack (j : Fin 16) : State.reset.stack[j.val] = 0 := Vector.getElem_replicate j.isLt

@[simp] theorem State.reset_key (k : Reg) : State.reset.key k = false := Vector.getElem_replicate k.isLt

theorem State.reset_display : State.reset.display = Display.clear := rfl

/-! ### The reset contents of memory -/

theorem reset_mem_read_font {a : Nat} (h : a < 80) : State.reset.mem.read a = font[a]'h :=
  (reset_mem_read a).trans (dif_pos h)

theorem reset_mem_read_above_font {a : Nat} (h : 80 ≤ a) : State.reset.mem.read a = 0 :=
  (reset_mem_read a).trans (dif_neg (Nat.not_lt.mpr h))

/-- Reset lists no cell: every byte is its reset content, and the empty list is canonical. -/
theorem reset_mem_wf : State.reset.mem.wf = true := rfl

/-- The pc starts at 0x200 (spec/10_state.md R38), below the largest jump target, and every slot is zero. -/
theorem reset_pcBounded : PcBounded State.reset :=
  ⟨by decide, fun j => by rw [State.reset_stack]; decide⟩

/-! ### The statements -/

/-- Settles O6: the scalar fields are literals of the reset state; its vectors and its memory by the lemmas above. -/
theorem resetStateIsAsSpecified : Obligations.ResetStateIsAsSpecified := by
  have hpixel (p : Pixel) : State.reset.display.pixel p = false := by rw [State.reset_display, Display.clear_pixel]
  exact ⟨State.reset_reg, rfl, rfl, rfl, State.reset_stack, rfl, rfl, State.reset_key, hpixel,
    fun _ h => reset_mem_read_font h, fun _ h _ => reset_mem_read_above_font h⟩

/-- Settles O7: the base case of the two invariants that O8 and O9 show every step to keep. -/
theorem resetMeetsInvariants : Obligations.ResetMeetsInvariants := ⟨reset_mem_wf, reset_pcBounded⟩

end Sys2Proof.Machine
end
